-- ==== Sys2Proof/Word.lean ====
section
/-! DEFINITION. The word, byte and register-index types of the machine (00_scope.md R6, R7).
A `BitVec n` numbers its bits as R7 does: bit 0 is the least significant. -/

namespace Sys2Proof

/-- A 32-bit value: a register, the pc, an address, an instruction word (R6, R20, R27). -/
abbrev Word := BitVec 32

/-- A byte of memory. -/
abbrev Byte := BitVec 8

/-- A general-register index, 0 to 31 (R20). -/
abbrev Reg := Fin 32

end Sys2Proof
end

