-- ==== Sys2Proof/Syntax.lean ====
section
/-! DEFINITION. The instructions: one constructor per row of spec/opcode_table.json, with the fields the row
lists (30_encoding.md R61 to R63, R66). Don't-care fields (R67) are no part of an instruction. -/

namespace Sys2Proof

/-- The 31 instructions and the halt sentinel (00_scope.md R2). -/
inductive Instr where
  -- 41_register_alu.md
  | sll (rd rt : Reg) (shamt : Nat)
  | srl (rd rt : Reg) (shamt : Nat)
  | add (rd rs rt : Reg)
  | addu (rd rs rt : Reg)
  | sub (rd rs rt : Reg)
  | subu (rd rs rt : Reg)
  | and (rd rs rt : Reg)
  | or (rd rs rt : Reg)
  | nor (rd rs rt : Reg)
  | slt (rd rs rt : Reg)
  | sltu (rd rs rt : Reg)
  -- 42_immediate_alu.md
  | addi (rt rs : Reg) (imm : BitVec 16)
  | addiu (rt rs : Reg) (imm : BitVec 16)
  | slti (rt rs : Reg) (imm : BitVec 16)
  | sltiu (rt rs : Reg) (imm : BitVec 16)
  | andi (rt rs : Reg) (imm : BitVec 16)
  | ori (rt rs : Reg) (imm : BitVec 16)
  | lui (rt : Reg) (imm : BitVec 16)
  -- 43_load_store.md
  | lw (rt rs : Reg) (imm : BitVec 16)
  | lbu (rt rs : Reg) (imm : BitVec 16)
  | lhu (rt rs : Reg) (imm : BitVec 16)
  | sb (rt rs : Reg) (imm : BitVec 16)
  | sh (rt rs : Reg) (imm : BitVec 16)
  | sw (rt rs : Reg) (imm : BitVec 16)
  -- 44_control_flow.md
  | j (address : BitVec 26)
  | jal (address : BitVec 26)
  | jr (rs : Reg)
  | beq (rs rt : Reg) (imm : BitVec 16)
  | bne (rs rt : Reg) (imm : BitVec 16)
  | blez (rs : Reg) (imm : BitVec 16)
  | bgtz (rs : Reg) (imm : BitVec 16)
  -- 40_cycle.md R82
  | halt
  deriving DecidableEq, Repr

/-- A decoded control-flow instruction with its fields: what the delay-slot controller keeps while the transfer
is pending (10_state.md R33). The seven of 44_control_flow.md R160. -/
inductive Control where
  | beq (rs rt : Reg) (imm : BitVec 16)
  | bne (rs rt : Reg) (imm : BitVec 16)
  | bgtz (rs : Reg) (imm : BitVec 16)
  | blez (rs : Reg) (imm : BitVec 16)
  | j (address : BitVec 26)
  | jal (address : BitVec 26)
  | jr (rs : Reg)
  deriving DecidableEq, Repr

/-- The row of spec/opcode_table.json an instruction belongs to, by its mnemonic. -/
def Instr.mnemonic : Instr → String
  | .sll .. => "sll" | .srl .. => "srl" | .add .. => "add" | .addu .. => "addu" | .sub .. => "sub"
  | .subu .. => "subu" | .and .. => "and" | .or .. => "or" | .nor .. => "nor" | .slt .. => "slt"
  | .sltu .. => "sltu" | .addi .. => "addi" | .addiu .. => "addiu" | .slti .. => "slti"
  | .sltiu .. => "sltiu" | .andi .. => "andi" | .ori .. => "ori" | .lui .. => "lui" | .lw .. => "lw"
  | .lbu .. => "lbu" | .lhu .. => "lhu" | .sb .. => "sb" | .sh .. => "sh" | .sw .. => "sw" | .j .. => "j"
  | .jal .. => "jal" | .jr .. => "jr" | .beq .. => "beq" | .bne .. => "bne" | .blez .. => "blez"
  | .bgtz .. => "bgtz" | .halt => "halt"

end Sys2Proof
end

