-- ==== Sys2Proof/WellFormed.lean ====
section
/-! DEFINITION. When an instruction can be encoded. Register indices, immediates and addresses are bounded by
their types; the shift amount is a count, and "A shift by 32 or more cannot be encoded"
(41_register_alu.md R108). -/

namespace Sys2Proof

/-- The check of a shift amount: it fits the unsigned 5-bit field (30_encoding.md R66). -/
def shamtFits (shamt : Nat) : Bool := shamt < 32

/-- An instruction that has an encoding. -/
def Instr.wf : Instr → Bool
  | .sll _ _ shamt => shamtFits shamt
  | .srl _ _ shamt => shamtFits shamt
  | .add .. | .addu .. | .sub .. | .subu .. | .and .. | .or .. | .nor .. | .slt .. | .sltu .. => true
  | .addi .. | .addiu .. | .slti .. | .sltiu .. | .andi .. | .ori .. | .lui .. => true
  | .lw .. | .lbu .. | .lhu .. | .sb .. | .sh .. | .sw .. => true
  | .j .. | .jal .. | .jr .. | .beq .. | .bne .. | .blez .. | .bgtz .. => true
  | .halt => true

end Sys2Proof
end

