-- ==== Sys2Proof/Decode.lean ====
section
/-! DEFINITION. The decoder and the encoder (30_encoding.md). Decoding is total: every word is the sentinel, one
of the 31 instructions, or illegal (R72), and an illegal word is rejected by the field that no table lists. -/

namespace Sys2Proof

/-! ## Bytes and words -/

/-- A word as the hardware stores it: big-endian, most significant byte first (20_memory.md R43). -/
def bytesOfWord (w : Word) : List Byte :=
  [w.extractLsb' 24 8, w.extractLsb' 16 8, w.extractLsb' 8 8, w.extractLsb' 0 8]

/-- Four bytes as a word, the first in bits 31:24 (20_memory.md R43). -/
def wordOfBytes (b0 b1 b2 b3 : Byte) : Word := b0 ++ b1 ++ b2 ++ b3

/-! ## Fields -/

/-- The eight fields the decoder takes from every word (R64). -/
structure Fields where
  opcode : BitVec 6
  rs : BitVec 5
  rt : BitVec 5
  rd : BitVec 5
  shamt : BitVec 5
  funct : BitVec 6
  imm : BitVec 16
  address : BitVec 26
  deriving DecidableEq, Repr

/-- The decoder of R64: pure, stateless, total. -/
def decodeFields (w : Word) : Fields :=
  { opcode := w.extractLsb' 26 6, rs := w.extractLsb' 21 5, rt := w.extractLsb' 16 5, rd := w.extractLsb' 11 5
    shamt := w.extractLsb' 6 5, funct := w.extractLsb' 0 6, imm := w.extractLsb' 0 16
    address := w.extractLsb' 0 26 }

/-- A 5-bit register field as a register index. -/
def regOfField (f : BitVec 5) : Reg := f.toFin

/-- A register index as its 5-bit field. -/
def fieldOfReg (r : Reg) : BitVec 5 := BitVec.ofFin r

/-! ## Dispatch -/

/-- The function map for opcode `0x00` (R69). -/
def dispatchFunct (funct : BitVec 6) : Option (Fields → Instr) :=
  match funct with
  | 0x00#6 => some fun f => .sll (regOfField f.rd) (regOfField f.rt) f.shamt.toNat
  | 0x02#6 => some fun f => .srl (regOfField f.rd) (regOfField f.rt) f.shamt.toNat
  | 0x08#6 => some fun f => .jr (regOfField f.rs)
  | 0x20#6 => some fun f => .add (regOfField f.rd) (regOfField f.rs) (regOfField f.rt)
  | 0x21#6 => some fun f => .addu (regOfField f.rd) (regOfField f.rs) (regOfField f.rt)
  | 0x22#6 => some fun f => .sub (regOfField f.rd) (regOfField f.rs) (regOfField f.rt)
  | 0x23#6 => some fun f => .subu (regOfField f.rd) (regOfField f.rs) (regOfField f.rt)
  | 0x24#6 => some fun f => .and (regOfField f.rd) (regOfField f.rs) (regOfField f.rt)
  | 0x25#6 => some fun f => .or (regOfField f.rd) (regOfField f.rs) (regOfField f.rt)
  | 0x27#6 => some fun f => .nor (regOfField f.rd) (regOfField f.rs) (regOfField f.rt)
  | 0x2A#6 => some fun f => .slt (regOfField f.rd) (regOfField f.rs) (regOfField f.rt)
  | 0x2B#6 => some fun f => .sltu (regOfField f.rd) (regOfField f.rs) (regOfField f.rt)
  | _ => none

/-- The primary opcode map, for an opcode that is not `0x00` (R68). -/
def dispatchOpcode (opcode : BitVec 6) : Option (Fields → Instr) :=
  match opcode with
  | 0x02#6 => some fun f => .j f.address
  | 0x03#6 => some fun f => .jal f.address
  | 0x04#6 => some fun f => .beq (regOfField f.rs) (regOfField f.rt) f.imm
  | 0x05#6 => some fun f => .bne (regOfField f.rs) (regOfField f.rt) f.imm
  | 0x06#6 => some fun f => .blez (regOfField f.rs) f.imm
  | 0x07#6 => some fun f => .bgtz (regOfField f.rs) f.imm
  | 0x08#6 => some fun f => .addi (regOfField f.rt) (regOfField f.rs) f.imm
  | 0x09#6 => some fun f => .addiu (regOfField f.rt) (regOfField f.rs) f.imm
  | 0x0A#6 => some fun f => .slti (regOfField f.rt) (regOfField f.rs) f.imm
  | 0x0B#6 => some fun f => .sltiu (regOfField f.rt) (regOfField f.rs) f.imm
  | 0x0C#6 => some fun f => .andi (regOfField f.rt) (regOfField f.rs) f.imm
  | 0x0D#6 => some fun f => .ori (regOfField f.rt) (regOfField f.rs) f.imm
  | 0x0F#6 => some fun f => .lui (regOfField f.rt) f.imm
  | 0x23#6 => some fun f => .lw (regOfField f.rt) (regOfField f.rs) f.imm
  | 0x24#6 => some fun f => .lbu (regOfField f.rt) (regOfField f.rs) f.imm
  | 0x25#6 => some fun f => .lhu (regOfField f.rt) (regOfField f.rs) f.imm
  | 0x28#6 => some fun f => .sb (regOfField f.rt) (regOfField f.rs) f.imm
  | 0x29#6 => some fun f => .sh (regOfField f.rt) (regOfField f.rs) f.imm
  | 0x2B#6 => some fun f => .sw (regOfField f.rt) (regOfField f.rs) f.imm
  | _ => none

/-- Dispatch on opcode and, when it is 0, on funct, and on nothing else (40_cycle.md R83). -/
def dispatch (opcode funct : BitVec 6) : Option (Fields → Instr) :=
  if opcode = 0x00#6 then dispatchFunct funct else dispatchOpcode opcode

/-! ## The decoder -/

/-- The halt sentinel (40_cycle.md R82). -/
def sentinel : Word := 0xFEEDFEED#32

/-- Why bytes are no instruction. -/
inductive DecodeReject where
  /-- The opcode is none of those of R68 (R71). -/
  | illegalOpcode (opcode : BitVec 6)
  /-- The opcode is `0x00` and the funct is none of those of R69 (R71). -/
  | illegalFunct (funct : BitVec 6)
  /-- Fewer than the four bytes of an instruction (R73). A fetch never meets this. -/
  | truncated
  deriving DecidableEq, Repr

/-- Decode one word. The sentinel is compared as a whole word before any field is looked at (R70). -/
def decodeWord (w : Word) : Except DecodeReject Instr :=
  if w = sentinel then .ok .halt
  else
    let f := decodeFields w
    match dispatch f.opcode f.funct with
    | some build => .ok (build f)
    | none => .error (if f.opcode = 0x00#6 then .illegalFunct f.funct else .illegalOpcode f.opcode)

/-- Decode the instruction at the front of a list of bytes, and give the bytes after it (R73). -/
def decode : List Byte → Except DecodeReject (Instr × List Byte)
  | b0 :: b1 :: b2 :: b3 :: rest => (decodeWord (wordOfBytes b0 b1 b2 b3)).map fun i => (i, rest)
  | _ => .error .truncated

/-! ## The encoder -/

/-- The register format (R61). -/
def encodeR (opcode : BitVec 6) (rs rt rd shamt : BitVec 5) (funct : BitVec 6) : Word :=
  opcode ++ rs ++ rt ++ rd ++ shamt ++ funct

/-- The immediate format (R62). -/
def encodeI (opcode : BitVec 6) (rs rt : BitVec 5) (imm : BitVec 16) : Word :=
  opcode ++ rs ++ rt ++ imm

/-- The jump format (R63). -/
def encodeJ (opcode : BitVec 6) (address : BitVec 26) : Word :=
  opcode ++ address

/-- A three-register instruction: opcode 0, shamt (a don't-care) written as 0 (R74). -/
def encodeAlu (rd rs rt : Reg) (funct : BitVec 6) : Word :=
  encodeR 0x00#6 (fieldOfReg rs) (fieldOfReg rt) (fieldOfReg rd) 0#5 funct

/-- A shift: opcode 0, rs (a don't-care) written as 0 (R74). -/
def encodeShift (rd rt : Reg) (shamt : Nat) (funct : BitVec 6) : Word :=
  encodeR 0x00#6 0#5 (fieldOfReg rt) (fieldOfReg rd) (BitVec.ofNat 5 shamt) funct

/-- The word of an instruction, don't-care fields written as 0 (R68, R69, R74). It is meant for well-formed
instructions: a shift amount of 32 or more has no encoding. -/
def encode : Instr → Word
  | .sll rd rt shamt => encodeShift rd rt shamt 0x00#6
  | .srl rd rt shamt => encodeShift rd rt shamt 0x02#6
  | .jr rs => encodeR 0x00#6 (fieldOfReg rs) 0#5 0#5 0#5 0x08#6
  | .add rd rs rt => encodeAlu rd rs rt 0x20#6
  | .addu rd rs rt => encodeAlu rd rs rt 0x21#6
  | .sub rd rs rt => encodeAlu rd rs rt 0x22#6
  | .subu rd rs rt => encodeAlu rd rs rt 0x23#6
  | .and rd rs rt => encodeAlu rd rs rt 0x24#6
  | .or rd rs rt => encodeAlu rd rs rt 0x25#6
  | .nor rd rs rt => encodeAlu rd rs rt 0x27#6
  | .slt rd rs rt => encodeAlu rd rs rt 0x2A#6
  | .sltu rd rs rt => encodeAlu rd rs rt 0x2B#6
  | .j address => encodeJ 0x02#6 address
  | .jal address => encodeJ 0x03#6 address
  | .beq rs rt imm => encodeI 0x04#6 (fieldOfReg rs) (fieldOfReg rt) imm
  | .bne rs rt imm => encodeI 0x05#6 (fieldOfReg rs) (fieldOfReg rt) imm
  | .blez rs imm => encodeI 0x06#6 (fieldOfReg rs) 0#5 imm
  | .bgtz rs imm => encodeI 0x07#6 (fieldOfReg rs) 0#5 imm
  | .addi rt rs imm => encodeI 0x08#6 (fieldOfReg rs) (fieldOfReg rt) imm
  | .addiu rt rs imm => encodeI 0x09#6 (fieldOfReg rs) (fieldOfReg rt) imm
  | .slti rt rs imm => encodeI 0x0A#6 (fieldOfReg rs) (fieldOfReg rt) imm
  | .sltiu rt rs imm => encodeI 0x0B#6 (fieldOfReg rs) (fieldOfReg rt) imm
  | .andi rt rs imm => encodeI 0x0C#6 (fieldOfReg rs) (fieldOfReg rt) imm
  | .ori rt rs imm => encodeI 0x0D#6 (fieldOfReg rs) (fieldOfReg rt) imm
  | .lui rt imm => encodeI 0x0F#6 0#5 (fieldOfReg rt) imm
  | .lw rt rs imm => encodeI 0x23#6 (fieldOfReg rs) (fieldOfReg rt) imm
  | .lbu rt rs imm => encodeI 0x24#6 (fieldOfReg rs) (fieldOfReg rt) imm
  | .lhu rt rs imm => encodeI 0x25#6 (fieldOfReg rs) (fieldOfReg rt) imm
  | .sb rt rs imm => encodeI 0x28#6 (fieldOfReg rs) (fieldOfReg rt) imm
  | .sh rt rs imm => encodeI 0x29#6 (fieldOfReg rs) (fieldOfReg rt) imm
  | .sw rt rs imm => encodeI 0x2B#6 (fieldOfReg rs) (fieldOfReg rt) imm
  | .halt => sentinel

/-- An instruction's bytes as the hardware stores them. -/
def encodeBytes (i : Instr) : List Byte := bytesOfWord (encode i)

/-! ## The opcode table -/

/-- A row of spec/opcode_table.json: a word belongs to it when its masked bits are `bits`. -/
structure TableRow where
  mnemonic : String
  mask : Word
  bits : Word
  deriving DecidableEq, Repr

/-- The mask of an R-format row: opcode and funct are fixed (R67). -/
def maskR : Word := 0xFC00003F#32

/-- The mask of an I- or J-format row: the opcode is fixed (R67). -/
def maskI : Word := 0xFC000000#32

/-- The R-format rows of spec/opcode_table.json, in its order. -/
def tableRowsR : List TableRow :=
  [⟨"sll", maskR, 0x00000000⟩, ⟨"srl", maskR, 0x00000002⟩, ⟨"jr", maskR, 0x00000008⟩, ⟨"add", maskR, 0x00000020⟩,
   ⟨"addu", maskR, 0x00000021⟩, ⟨"sub", maskR, 0x00000022⟩, ⟨"subu", maskR, 0x00000023⟩,
   ⟨"and", maskR, 0x00000024⟩, ⟨"or", maskR, 0x00000025⟩, ⟨"nor", maskR, 0x00000027⟩, ⟨"slt", maskR, 0x0000002A⟩,
   ⟨"sltu", maskR, 0x0000002B⟩]

/-- The other rows of spec/opcode_table.json, in its order. -/
def tableRowsI : List TableRow :=
  [⟨"j", maskI, 0x08000000⟩, ⟨"jal", maskI, 0x0C000000⟩, ⟨"beq", maskI, 0x10000000⟩, ⟨"bne", maskI, 0x14000000⟩,
   ⟨"blez", maskI, 0x18000000⟩, ⟨"bgtz", maskI, 0x1C000000⟩, ⟨"addi", maskI, 0x20000000⟩,
   ⟨"addiu", maskI, 0x24000000⟩, ⟨"slti", maskI, 0x28000000⟩, ⟨"sltiu", maskI, 0x2C000000⟩,
   ⟨"andi", maskI, 0x30000000⟩, ⟨"ori", maskI, 0x34000000⟩, ⟨"lui", maskI, 0x3C000000⟩, ⟨"lw", maskI, 0x8C000000⟩,
   ⟨"lbu", maskI, 0x90000000⟩, ⟨"lhu", maskI, 0x94000000⟩, ⟨"sb", maskI, 0xA0000000⟩, ⟨"sh", maskI, 0xA4000000⟩,
   ⟨"sw", maskI, 0xAC000000⟩, ⟨"halt", 0xFFFFFFFF, 0xFEEDFEED⟩]

/-- spec/opcode_table.json: mnemonic, mask and match of every row. -/
def opcodeTable : List TableRow := tableRowsR ++ tableRowsI

/-- The word belongs to the row. -/
def TableRow.matches (r : TableRow) (w : Word) : Bool := w &&& r.mask == r.bits

/-- The instruction the decoder reads from a row's word of `nbits` bits, its bytes laid out as the hardware
stores them; bits above `nbits` are 0. -/
def decodeTableWord (nbits w : Nat) : Option Instr :=
  match decode (bytesOfWord (BitVec.ofNat 32 (w % 2 ^ nbits))) with
  | .ok (i, _) => some i
  | .error _ => none

end Sys2Proof
end

