-- ==== Sys2Proof/Config.lean ====
section
/-! DEFINITION. The implementation parameters of 00_scope.md R6 that the spec leaves to the implementation, and
the one open value. `State` carries a `Config` so that one step function serves every setting (log 2). -/

namespace Sys2Proof

/-- The addresses `lo ≤ a < hi`. -/
structure AddrRange where
  lo : Nat
  hi : Nat
  deriving DecidableEq, Repr

/-- The parameters of R6. No instruction changes them (10_state.md R35). -/
structure Config where
  /-- `R0_WRITABLE` (10_state.md R23): are writes to register index 0 kept? -/
  r0Writable : Bool
  /-- `BRANCH_OPERANDS_AFTER_SLOT` (44_control_flow.md R163): does a conditional branch compare its registers
  after the delay slot? -/
  branchOperandsAfterSlot : Bool
  /-- `FETCH_WINDOW` (20_memory.md R46): the addresses an instruction may be fetched from. -/
  fetchWindow : List AddrRange
  deriving DecidableEq, Repr

/-- The default parameters for an image of `n` words: `R0_WRITABLE = true` (D1),
`BRANCH_OPERANDS_AFTER_SLOT = true` (D6), `FETCH_WINDOW` the loaded image `[0, 4n)` (D4). -/
def Config.standard (n : Nat) : Config :=
  { r0Writable := true, branchOperandsAfterSlot := true, fetchWindow := [⟨0, 4 * n⟩] }

/-- A free value: the exit status of a spec-defined fault is an open parameter, any value but 0
(60_exceptions.md R192, D18; log 16). The status is this number plus one. -/
opaque Config.faultExitOffset : Nat

end Sys2Proof
end

