-- ==== Sys2Proof/Machine/State.lean ====
section
/-! DEFINITION. The state of the machine (10_state.md), why a step can stop, and the machine right after reset. -/

namespace Sys2Proof.Machine

/-- The fault kinds of 60_exceptions.md R191. -/
inductive FaultKind where
  /-- A fetch with `pc[1:0] ≠ 0`; records pc (R46). -/
  | fetchMisaligned
  /-- A fetch with pc outside `FETCH_WINDOW`; records pc (R46). -/
  | fetchOutOfRange
  /-- A halfword or word access whose effective address breaks its alignment; records it (R45). -/
  | dataMisaligned
  /-- A control-flow instruction fetched while `slot` is not `None`; records its address (R162). -/
  | controlInDelaySlot
  deriving DecidableEq, Repr

/-- The run state (R34). Everything but `running` is terminal (R81). -/
inductive Run where
  | running
  /-- The sentinel was fetched (R82). -/
  | halted
  /-- The unrecognised word `w` was fetched (R84). -/
  | illegal (w : Word)
  /-- A spec-defined fault with the value it records (R191). -/
  | fault (kind : FaultKind) (value : Word)
  deriving DecidableEq, Repr

/-- `Pending(c, A)` of the branch-delay-slot controller (R33): the control-flow instruction, the address it was
fetched from, and, only under `BRANCH_OPERANDS_AFTER_SLOT = false`, the outcome of a conditional branch's compare
made before the slot (R163; log 13). -/
structure Pending where
  control : Control
  addr : Word
  early : Option Bool
  deriving DecidableEq, Repr

/-- Memory: the bytes that differ from what an unlisted address reads as, by rising address (`Memory.wf`). -/
abbrev Memory := List Host.Cell

/-- The architectural state (R37), and the configuration of R35 that the one step function reads (log 2). -/
structure State where
  /-- The 32 general registers (R20). -/
  gpr : Vector Word 32
  /-- The address of the next instruction to fetch (R27). -/
  pc : Word
  /-- The delay-slot controller (R33). -/
  slot : Option Pending
  /-- The run state (R34). -/
  run : Run
  /-- The memory store (20_memory.md R40). -/
  mem : Memory
  /-- The parameters (R35). -/
  config : Config
  deriving DecidableEq, Repr

/-- Why a step answers no next state. -/
inductive Fault where
  /-- Raised by `step` alone, in a state whose run is over: "A state whose `run` is not `Running` has no step"
  (40_cycle.md R81). Safe: the machine is stuck there, as the spec says. -/
  | noStep (stop : Run)
  deriving DecidableEq, Repr

/-- Why the model gives an instruction no meaning. -/
inductive Refusal where
  /-- Raised by an arm of `exec` for an instruction without a meaning; no arm does. Safe: the machine stops. -/
  | notModelled (mnemonic : String)
  deriving DecidableEq, Repr

/-- The outcome of executing an instruction, and of a step. -/
abbrev Result := Host.Outcome State Fault Refusal

/-- The machine right after reset (R37, 70_reset_and_hazards.md R220) with no image placed, that is N = 0: every
register 0, pc 0, no transfer pending, running, memory all zero, the default parameters. -/
def State.reset : State :=
  { gpr := Vector.replicate 32 0#32
    pc := 0#32
    slot := none
    run := .running
    mem := []
    config := Config.standard 0 }

end Sys2Proof.Machine
end

