-- ==== Sys2Proof/Machine/Flags.lean ====
section
/-! DEFINITION. The comparisons. There are no flags: "Comparison results go to a general register", and the
conditional branches compare registers directly (10_state.md R31). Signed readings are two's complement
(00_scope.md R8, R9). -/

namespace Sys2Proof.Machine

/-- The 1 or 0 that slt, sltu, slti and sltiu write. -/
def boolWord (b : Bool) : Word := if b then 1#32 else 0#32

/-- `signed(x) < signed(y)`. -/
def lessSigned (x y : Word) : Bool := x.slt y

/-- `unsigned(x) < unsigned(y)`. -/
def lessUnsigned (x y : Word) : Bool := x.ult y

/-- `signed(x) > 0` (44_control_flow.md R167). -/
def isPositive (x : Word) : Bool := lessSigned 0#32 x

/-- `signed(x) ≤ 0` (R168). -/
def isNonPositive (x : Word) : Bool := !isPositive x

end Sys2Proof.Machine
end

