-- ==== Sys2Proof/Machine/Operands.lean ====
section
/-! DEFINITION. How each operand is assembled from the fields (30_encoding.md R66), and the link register. -/

namespace Sys2Proof.Machine

/-- `sext_32(imm)`: addi, addiu, slti, sltiu, loads and stores. -/
def sext32 (imm : BitVec 16) : Word := imm.signExtend 32

/-- `zext_32(imm)`: andi, ori. -/
def zext32 (imm : BitVec 16) : Word := imm.zeroExtend 32

/-- `imm ++ 0x0000`: lui. -/
def upperImmediate (imm : BitVec 16) : Word := imm ++ 0x0000#16

/-- `sext_32(imm ++ 0b00)`, an 18-bit value sign-extended: the conditional branches (44_control_flow.md R164). -/
def branchOffset (imm : BitVec 16) : Word := (imm ++ 0b00#2).signExtend 32

/-- The target of a taken branch, `pc` the post-delay-slot pc (R164). -/
def branchTarget (pc : Word) (imm : BitVec 16) : Word := pc + branchOffset imm

/-- `pc[31:28] ++ address ++ 0b00`, `pc` the post-delay-slot pc: j, jal (R169). -/
def jumpTarget (pc : Word) (address : BitVec 26) : Word := pc.extractLsb' 28 4 ++ address ++ 0b00#2

/-- The link register, `$ra` (10_state.md R25). PRESUMED: the index is the spec's general knowledge (log 9). -/
def linkReg : Reg := 31

end Sys2Proof.Machine
end

