-- ==== Sys2Proof/Machine/Ops.lean ====
section
/-! DEFINITION. The shared operations: memory, registers, the pc, stopping, fetching, and the shapes an
instruction's effect takes. -/

namespace Sys2Proof.Machine

/-! ## Memory bytes (20_memory.md) -/

/-- What an address with no entry reads as: `0x00`, the reset contents outside the image (R56; log 6). -/
def unlistedByte : Byte := 0#8

/-- The byte at an address. -/
def Memory.read : Memory → Nat → Byte
  | [], _ => unlistedByte
  | (k, b) :: m, a => if k = a then b else Memory.read m a

/-- Memory without its entries for an address. -/
def Memory.erase : Memory → Nat → Memory
  | [], _ => []
  | (k, b) :: m, a => if k = a then Memory.erase m a else (k, b) :: Memory.erase m a

/-- Memory with an entry put before the first higher address. -/
def Memory.insert : Memory → Nat → Byte → Memory
  | [], a, v => [(a, v)]
  | (k, b) :: m, a, v => if a < k then (a, v) :: (k, b) :: m else (k, b) :: Memory.insert m a v

/-- Memory with the byte at an address replaced. Writing what an unlisted address reads as removes the entry, so
equal memories are equal lists. -/
def Memory.write (m : Memory) (a : Nat) (v : Byte) : Memory :=
  if v = unlistedByte then m.erase a else (m.erase a).insert a v

/-- The canonical form: addresses strictly rising, inside the 2^32 bytes of R40, and no entry equal to what an
unlisted address reads as. -/
abbrev Memory.wf (m : Memory) : Prop :=
  m.Pairwise (fun c d => c.1 < d.1) ∧ ∀ c ∈ m, c.1 < 2 ^ 32 ∧ c.2 ≠ unlistedByte

/-! ## Memory accesses, big-endian, addresses modulo 2^32 (R41, R43) -/

/-- `M[a]`, which is `MemRead(a, 1)`. -/
def Memory.read8 (m : Memory) (a : Word) : BitVec 8 := m.read a.toNat

/-- `MemRead(a, 2)`. -/
def Memory.read16 (m : Memory) (a : Word) : BitVec 16 := m.read8 a ++ m.read8 (a + 1)

/-- `MemRead(a, 4)`. -/
def Memory.read32 (m : Memory) (a : Word) : BitVec 32 :=
  wordOfBytes (m.read8 a) (m.read8 (a + 1)) (m.read8 (a + 2)) (m.read8 (a + 3))

/-- `MemWrite(a, 1, v)`. -/
def Memory.write8 (m : Memory) (a : Word) (v : BitVec 8) : Memory := m.write a.toNat v

/-- `MemWrite(a, 2, v)`. -/
def Memory.write16 (m : Memory) (a : Word) (v : BitVec 16) : Memory :=
  (m.write8 a (v.extractLsb' 8 8)).write8 (a + 1) (v.extractLsb' 0 8)

/-- `MemWrite(a, 4, v)`. -/
def Memory.write32 (m : Memory) (a : Word) (v : BitVec 32) : Memory :=
  (((m.write8 a (v.extractLsb' 24 8)).write8 (a + 1) (v.extractLsb' 16 8)).write8 (a + 2)
    (v.extractLsb' 8 8)).write8 (a + 3) (v.extractLsb' 0 8)

/-- `addr[0] = 0` (R45). -/
def aligned2 (a : Word) : Bool := a.extractLsb' 0 1 == 0#1

/-- `addr[1:0] = 0` (R45, R46). -/
def aligned4 (a : Word) : Bool := a.extractLsb' 0 2 == 0#2

/-! ## One update per field -/

/-- `pc <- v`. -/
def State.setPc (s : State) (v : Word) : State := { s with pc := v }

/-- `slot <- p`. -/
def State.setSlot (s : State) (p : Option Pending) : State := { s with slot := p }

/-- The memory replaced. -/
def State.setMem (s : State) (m : Memory) : State := { s with mem := m }

/-- The parameters replaced: only the loader does this. -/
def State.setConfig (s : State) (c : Config) : State := { s with config := c }

/-- `stop k` (40_cycle.md R80): `run <- k`, and nothing else. It is the one way a run ends, and the only thing
this hardware has in place of taking an exception: "No stop saves state anywhere", no mode changes, no vector is
entered (60_exceptions.md R193), and nothing returns from it (R196). -/
def State.stop (s : State) (k : Run) : State := { s with run := k }

/-! ## General registers (10_state.md R21, R23) -/

/-- `x[i]`. Under `R0_WRITABLE = false`, `x[0]` always reads 0. -/
def State.readReg (s : State) (i : Reg) : Word :=
  if i = 0 ∧ s.config.r0Writable = false then 0#32 else s.gpr[i]

/-- `x[i] <- v`. Under `R0_WRITABLE = false`, a write to `x[0]` is discarded. -/
def State.writeReg (s : State) (i : Reg) (v : Word) : State :=
  if i = 0 ∧ s.config.r0Writable = false then s else { s with gpr := s.gpr.set i v }

/-! ## Fetch (20_memory.md R46) -/

/-- The address lies in the range. -/
def addrInRange (r : AddrRange) (a : Nat) : Bool := decide (r.lo ≤ a) && decide (a < r.hi)

/-- The address lies in `FETCH_WINDOW`. -/
def State.inFetchWindow (s : State) (a : Word) : Bool := s.config.fetchWindow.any fun r => addrInRange r a.toNat

/-- The parameters with the four bytes at an address let into `FETCH_WINDOW`. -/
def admitWord (c : Config) (a : Word) : Config :=
  { c with fetchWindow := ⟨a.toNat, a.toNat + 4⟩ :: c.fetchWindow }

/-- The fetch: admission in the order of R46, then `MemRead(pc, 4)`; or the stop it meets. -/
def State.fetch (s : State) : Except Run Word :=
  if aligned4 s.pc = false then .error (.fault .fetchMisaligned s.pc)
  else if s.inFetchWindow s.pc = false then .error (.fault .fetchOutOfRange s.pc)
  else .ok (s.mem.read32 s.pc)

/-- `pc <- pc + 4`, modulo 2^32, right after the fetch (10_state.md R28). -/
def State.advance (s : State) : State := s.setPc (s.pc + 4)

/-! ## The shapes of an effect

Each takes the state at the instruction's own address and moves past the instruction itself (00_scope.md R11). -/

/-- The instruction writes one register and goes on. -/
def State.writeBack (s : State) (rd : Reg) (v : Word) : Result := .next (s.advance.writeReg rd v)

/-- The instruction replaces the memory and goes on. -/
def State.storeBack (s : State) (m : Memory) : Result := .next (s.advance.setMem m)

/-- The instruction stops the run. -/
def State.stopAfter (s : State) (k : Run) : Result := .next (s.advance.stop k)

/-- Base plus displacement: the one addressing mode (43_load_store.md R140). -/
def State.effectiveAddress (s : State) (rs : Reg) (imm : BitVec 16) : Word := s.readReg rs + sext32 imm

/-- A load or store whose effective address is misaligned: it reads and writes nothing (R45). -/
def State.dataMisaligned (s : State) (ea : Word) : Result := s.stopAfter (.fault .dataMisaligned ea)

end Sys2Proof.Machine
end

