-- ==== Sys2Proof/Machine/ControlFlow.lean ====
section
/-! DEFINITION. Control flow and the delay slot (44_control_flow.md). A control-flow instruction runs in two steps
(R161): `exec…` is step 1, which sets `slot`; `resolve…` is the transfer at the end of step 2, after the
delay-slot instruction, when pc is the post-delay-slot pc. -/

namespace Sys2Proof.Machine

/-- Does the conditional branch branch, on the registers of `s`? Nothing for a jump (R165 to R168). -/
def State.branchTaken (s : State) : Control → Option Bool
  | .beq rs rt _ => some (s.readReg rs == s.readReg rt)
  | .bne rs rt _ => some (s.readReg rs != s.readReg rt)
  | .bgtz rs _ => some (isPositive (s.readReg rs))
  | .blez rs _ => some (isNonPositive (s.readReg rs))
  | .j _ => none
  | .jal _ => none
  | .jr _ => none

/-- What step 1 keeps of a branch's compare: nothing when the compare is made after the slot, else its outcome
now (R163; log 13). -/
def State.earlyOutcome (s : State) (c : Control) : Option Bool :=
  if s.config.branchOperandsAfterSlot then none else s.branchTaken c

/-- Step 1 of R161: `pc <- A + 4; slot <- Pending(c, A)`. In a delay slot it stops instead, with neither
transfer applied (R162). -/
def State.issue (s : State) (c : Control) : Result :=
  match s.slot with
  | some _ => s.stopAfter (.fault .controlInDelaySlot s.pc)
  | none => .next (s.advance.setSlot (some { control := c, addr := s.pc, early := s.earlyOutcome c }))

/-- The transfer of a conditional branch (R164): the outcome kept by step 1, or else the compare made now. -/
def State.branch (s : State) (c : Control) (early : Option Bool) (imm : BitVec 16) : State :=
  if (early <|> s.branchTaken c) = some true then s.setPc (branchTarget s.pc imm) else s

/-! ## Step 1 -/

/-- R165. -/
def execBeq (rs rt : Reg) (imm : BitVec 16) (s : State) : Result := s.issue (.beq rs rt imm)

/-- R166. -/
def execBne (rs rt : Reg) (imm : BitVec 16) (s : State) : Result := s.issue (.bne rs rt imm)

/-- R168. -/
def execBlez (rs : Reg) (imm : BitVec 16) (s : State) : Result := s.issue (.blez rs imm)

/-- R167. -/
def execBgtz (rs : Reg) (imm : BitVec 16) (s : State) : Result := s.issue (.bgtz rs imm)

/-- R170. -/
def execJ (address : BitVec 26) (s : State) : Result := s.issue (.j address)

/-- R171. -/
def execJal (address : BitVec 26) (s : State) : Result := s.issue (.jal address)

/-- R172. -/
def execJr (rs : Reg) (s : State) : Result := s.issue (.jr rs)

/-! ## The transfer at the end of step 2 -/

/-- R165. -/
def resolveBeq (rs rt : Reg) (imm : BitVec 16) (early : Option Bool) (s : State) : State :=
  s.branch (.beq rs rt imm) early imm

/-- R166. -/
def resolveBne (rs rt : Reg) (imm : BitVec 16) (early : Option Bool) (s : State) : State :=
  s.branch (.bne rs rt imm) early imm

/-- R167. -/
def resolveBgtz (rs : Reg) (imm : BitVec 16) (early : Option Bool) (s : State) : State :=
  s.branch (.bgtz rs imm) early imm

/-- R168. -/
def resolveBlez (rs : Reg) (imm : BitVec 16) (early : Option Bool) (s : State) : State :=
  s.branch (.blez rs imm) early imm

/-- R170. -/
def resolveJ (address : BitVec 26) (s : State) : State := s.setPc (jumpTarget s.pc address)

/-- R171: the link is the post-delay-slot pc, written after the slot. -/
def resolveJal (address : BitVec 26) (s : State) : State :=
  (s.writeReg linkReg s.pc).setPc (jumpTarget s.pc address)

/-- R172: `rs` is read after the slot. -/
def resolveJr (rs : Reg) (s : State) : State := s.setPc (s.readReg rs)

/-- `resolve(c)` (R161): the control transfer of the pending instruction. -/
def State.resolve (s : State) (p : Pending) : State :=
  match p.control with
  | .beq rs rt imm => resolveBeq rs rt imm p.early s
  | .bne rs rt imm => resolveBne rs rt imm p.early s
  | .bgtz rs imm => resolveBgtz rs imm p.early s
  | .blez rs imm => resolveBlez rs imm p.early s
  | .j address => resolveJ address s
  | .jal address => resolveJal address s
  | .jr rs => resolveJr rs s

/-- The end of a step (40_cycle.md R80): if the step stopped the run, nothing more (R86); if a transfer was
pending when the step began, it is applied and the slot is emptied (R85); else nothing. `before` is the slot the
step began with. -/
def State.retire (s : State) (before : Option Pending) : State :=
  match before with
  | none => s
  | some p => if s.run = .running then (s.resolve p).setSlot none else s

/-- The end of the step, on an outcome. -/
def retireResult (before : Option Pending) : Result → Result
  | .next t => .next (t.retire before)
  | .fault r => .fault r
  | .refused r => .refused r

end Sys2Proof.Machine
end

