-- ==== Sys2Proof/Machine/ImmediateAlu.lean ====
section
/-! DEFINITION. Immediate-format arithmetic, logical and compare (42_immediate_alu.md). -/

namespace Sys2Proof.Machine

/-- R121: signed overflow does not trap. -/
def execAddi (rt rs : Reg) (imm : BitVec 16) (s : State) : Result := s.writeBack rt (s.readReg rs + sext32 imm)

/-- R122: identical to addi, the immediate sign-extended despite the name. -/
def execAddiu (rt rs : Reg) (imm : BitVec 16) (s : State) : Result := s.writeBack rt (s.readReg rs + sext32 imm)

/-- R126: signed. -/
def execSlti (rt rs : Reg) (imm : BitVec 16) (s : State) : Result :=
  s.writeBack rt (boolWord (lessSigned (s.readReg rs) (sext32 imm)))

/-- R127: the immediate is sign-extended, then both are read as unsigned. -/
def execSltiu (rt rs : Reg) (imm : BitVec 16) (s : State) : Result :=
  s.writeBack rt (boolWord (lessUnsigned (s.readReg rs) (sext32 imm)))

/-- R123: the immediate is zero-extended. -/
def execAndi (rt rs : Reg) (imm : BitVec 16) (s : State) : Result := s.writeBack rt (s.readReg rs &&& zext32 imm)

/-- R124: the immediate is zero-extended. -/
def execOri (rt rs : Reg) (imm : BitVec 16) (s : State) : Result := s.writeBack rt (s.readReg rs ||| zext32 imm)

/-- R125: no register is read. -/
def execLui (rt : Reg) (imm : BitVec 16) (s : State) : Result := s.writeBack rt (upperImmediate imm)

end Sys2Proof.Machine
end

