-- ==== Sys2Proof/Machine/LoadStore.lean ====
section
/-! DEFINITION. Loads and stores (43_load_store.md): base plus sign-extended displacement (R140), the alignment
check of 20_memory.md R45 before any access, every load zero-extended. -/

namespace Sys2Proof.Machine

/-- R141: a byte access is always aligned. -/
def execLbu (rt rs : Reg) (imm : BitVec 16) (s : State) : Result :=
  s.writeBack rt ((s.mem.read8 (s.effectiveAddress rs imm)).zeroExtend 32)

/-- R142. -/
def execLhu (rt rs : Reg) (imm : BitVec 16) (s : State) : Result :=
  let ea := s.effectiveAddress rs imm
  if aligned2 ea then s.writeBack rt ((s.mem.read16 ea).zeroExtend 32) else s.dataMisaligned ea

/-- R143. -/
def execLw (rt rs : Reg) (imm : BitVec 16) (s : State) : Result :=
  let ea := s.effectiveAddress rs imm
  if aligned4 ea then s.writeBack rt (s.mem.read32 ea) else s.dataMisaligned ea

/-- R144: the low byte of `rt`. -/
def execSb (rt rs : Reg) (imm : BitVec 16) (s : State) : Result :=
  s.storeBack (s.mem.write8 (s.effectiveAddress rs imm) ((s.readReg rt).extractLsb' 0 8))

/-- R145: the low two bytes of `rt`. -/
def execSh (rt rs : Reg) (imm : BitVec 16) (s : State) : Result :=
  let ea := s.effectiveAddress rs imm
  if aligned2 ea then s.storeBack (s.mem.write16 ea ((s.readReg rt).extractLsb' 0 16)) else s.dataMisaligned ea

/-- R146. -/
def execSw (rt rs : Reg) (imm : BitVec 16) (s : State) : Result :=
  let ea := s.effectiveAddress rs imm
  if aligned4 ea then s.storeBack (s.mem.write32 ea (s.readReg rt)) else s.dataMisaligned ea

end Sys2Proof.Machine
end

