-- ==== Sys2Proof/Machine/RegisterAlu.lean ====
section
/-! DEFINITION. Register-format arithmetic, logical, shift and compare (41_register_alu.md). Arithmetic is modulo
2^32, nothing traps (R100). -/

namespace Sys2Proof.Machine

/-- R101: signed overflow does not trap. -/
def execAdd (rd rs rt : Reg) (s : State) : Result := s.writeBack rd (s.readReg rs + s.readReg rt)

/-- R102: the result is identical to add. -/
def execAddu (rd rs rt : Reg) (s : State) : Result := s.writeBack rd (s.readReg rs + s.readReg rt)

/-- R103: signed overflow does not trap. -/
def execSub (rd rs rt : Reg) (s : State) : Result := s.writeBack rd (s.readReg rs - s.readReg rt)

/-- R104: the result is identical to sub. -/
def execSubu (rd rs rt : Reg) (s : State) : Result := s.writeBack rd (s.readReg rs - s.readReg rt)

/-- R105. -/
def execAnd (rd rs rt : Reg) (s : State) : Result := s.writeBack rd (s.readReg rs &&& s.readReg rt)

/-- R106. -/
def execOr (rd rs rt : Reg) (s : State) : Result := s.writeBack rd (s.readReg rs ||| s.readReg rt)

/-- R107: or, then complement. -/
def execNor (rd rs rt : Reg) (s : State) : Result := s.writeBack rd (~~~(s.readReg rs ||| s.readReg rt))

/-- R108. -/
def execSll (rd rt : Reg) (shamt : Nat) (s : State) : Result := s.writeBack rd (s.readReg rt <<< shamt)

/-- R109: fills with zeros. -/
def execSrl (rd rt : Reg) (shamt : Nat) (s : State) : Result := s.writeBack rd (s.readReg rt >>> shamt)

/-- R110: signed. -/
def execSlt (rd rs rt : Reg) (s : State) : Result :=
  s.writeBack rd (boolWord (lessSigned (s.readReg rs) (s.readReg rt)))

/-- R111: unsigned. -/
def execSltu (rd rs rt : Reg) (s : State) : Result :=
  s.writeBack rd (boolWord (lessUnsigned (s.readReg rs) (s.readReg rt)))

end Sys2Proof.Machine
end

