-- ==== Sys2Proof/Machine/System.lean ====
section
/-! DEFINITION. The halt sentinel and the illegal word (40_cycle.md): the two words that are no ALU, memory or
control-flow instruction. -/

namespace Sys2Proof.Machine

/-- R82: the run halts; pc stays at the sentinel's address, registers and memory are unchanged. -/
def execHalt (s : State) : Result := .next (s.stop .halted)

/-- R84: an illegal word stops the run; pc has already been incremented. -/
def illegalWord (w : Word) (s : State) : Result := s.stopAfter (.illegal w)

end Sys2Proof.Machine
end

