-- ==== Sys2Proof/Machine/Step.lean ====
section
/-! DEFINITION. The step of 40_cycle.md R80, and placing a word where the next fetch reads. -/

namespace Sys2Proof.Machine

/-- One fetched word (R80). A state whose run is over has no step (R81). -/
def step (s : State) : Host.Outcome State Fault Refusal :=
  if s.run = .running then
    match s.fetch with
    | .error k => .next (s.stop k)
    | .ok w =>
      match decodeWord w with
      | .error _ => illegalWord w s
      | .ok i => retireResult s.slot (exec i s)
  else .fault (.noStep s.run)

/-- The state with one instruction word, its bits above `nbits` zero, stored where the next step fetches: the
loading of a program that the hardware's loader does (70_reset_and_hazards.md R220; log 4). What the fetch needs
and no more: the word at the pc, the run going on, an aligned pc, and the pc inside `FETCH_WINDOW`; each is left
alone where it already holds. -/
def State.withFetchWord (s : State) (nbits w : Nat) : State :=
  let pc := if aligned4 s.pc then s.pc else s.pc &&& 0xFFFFFFFC#32
  { s with
    pc := pc
    run := .running
    mem := s.mem.write32 pc (BitVec.ofNat 32 (w % 2 ^ nbits))
    config := if s.inFetchWindow pc then s.config else admitWord s.config pc }

end Sys2Proof.Machine
end

