-- ==== Sys2Proof/Machine/Observation.lean ====
section
/-! DEFINITION. What the host receives when a run ends: the exit status and, on a halt only, the dump
(60_exceptions.md R192, R200; 10_state.md R36). The dump's serialization and the diagnostic text are the
collaborators' concern (00_scope.md R5). -/

namespace Sys2Proof.Machine

/-- The register names by index (10_state.md R24). PRESUMED: the spec supplies the indices from general knowledge
(log 17). -/
def regNames : Vector String 32 :=
  #v["$zero", "$at", "$v0", "$v1", "$a0", "$a1", "$a2", "$a3", "$t0", "$t1", "$t2", "$t3", "$t4", "$t5", "$t6", "$t7",
     "$s0", "$s1", "$s2", "$s3", "$s4", "$s5", "$s6", "$s7", "$t8", "$t9", "$k0", "$k1", "$gp", "$sp", "$fp", "$ra"]

/-- The dump: the 32 registers, each under its name, and the memory. It holds no pc and no `slot` (R36). -/
structure Dump where
  registers : List (String × Word)
  memory : Memory
  deriving DecidableEq, Repr

/-- The register grouping of R36. DESIGN CHOICE: the list stands in index order; the spec gives the grouping no order
(91_not_in_source.md G4, G17; log 23). -/
def State.registerGrouping (s : State) : List (String × Word) :=
  (List.finRange 32).map fun r => (regNames[r], s.readReg r)

/-- The dump of a state. -/
def State.dump (s : State) : Dump := { registers := s.registerGrouping, memory := s.mem }

/-- What the end of a run shows (R200). -/
structure Observation where
  exitStatus : Nat
  dump : Option Dump
  deriving DecidableEq, Repr

/-- The exit status of a spec-defined fault: open, any value but 0 (R192, D18; log 16). -/
def faultExitStatus : Nat := Config.faultExitOffset + 1

/-- The observation of a state, if the run has ended (R192, R200). -/
def State.observe (s : State) : Option Observation :=
  match s.run with
  | .running => none
  | .halted => some { exitStatus := 0, dump := some s.dump }
  | .illegal _ => some { exitStatus := 127, dump := none }
  | .fault _ _ => some { exitStatus := faultExitStatus, dump := none }

end Sys2Proof.Machine
end

