-- ==== Sys2Proof/Machine/Loader.lean ====
section
/-! DEFINITION. The loader's side of reset (70_reset_and_hazards.md R220, 20_memory.md R44): placing an image, and
the startup errors that keep the core from starting (60_exceptions.md R198). -/

namespace Sys2Proof.Machine

/-- Memory with image words placed one after another, the first as word `k`: word `k` stands at byte address `4k`,
big-endian (R44). -/
def Memory.placeWords (m : Memory) (k : Nat) : List Word → Memory
  | [] => m
  | w :: ws => (m.write32 (BitVec.ofNat 32 (4 * k)) w).placeWords (k + 1) ws

/-- How many words fit the 2^32 bytes of the address space. DESIGN CHOICE: of a longer image only these are placed
(log 15). -/
def maxImageWords : Nat := 2 ^ 30

/-- The machine right after reset with an image of N words loaded, under parameters whose fetch window is the
default `[0, 4N)` (R37, R46, R220). -/
def State.load (r0Writable branchOperandsAfterSlot : Bool) (image : List Word) : State :=
  let placed := image.take maxImageWords
  { State.reset with
    mem := Memory.placeWords [] 0 placed
    config :=
      { Config.standard placed.length with
        r0Writable := r0Writable, branchOperandsAfterSlot := branchOperandsAfterSlot } }

/-- The words of a file: "each 4-byte group, in file order, becomes one big-endian 32-bit instruction word".
Nothing when the length is no multiple of 4. -/
def wordsOfFile : List Byte → Option (List Word)
  | [] => some []
  | b0 :: b1 :: b2 :: b3 :: rest => (wordsOfFile rest).map fun ws => wordOfBytes b0 b1 b2 b3 :: ws
  | _ => none

/-- What the host gives the loader. -/
inductive ProgramInput where
  | wrongArgumentCount
  | unreadableFile
  | file (bytes : List Byte)
  deriving DecidableEq, Repr

/-- How a start ends: the core is in its reset state, or it never starts. -/
inductive Startup where
  | started (s : State)
  | failed (o : Observation)
  deriving DecidableEq, Repr

/-- A startup error: exit status 1 and a dump of the zeroed state (R198). -/
def startupError : Startup := .failed { exitStatus := 1, dump := some State.reset.dump }

/-- Starting the machine on a program input, under the default parameters (R198, R220). -/
def start : ProgramInput → Startup
  | .wrongArgumentCount => startupError
  | .unreadableFile => startupError
  | .file bytes =>
    match wordsOfFile bytes with
    | some image => .started (State.load true true image)
    | none => startupError

end Sys2Proof.Machine
end

