-- ==== Sys2Proof/Machine/Nested.lean ====
section
/-! DEFINITION. The source's own rendering of the delay slot, against which the two-step protocol is compared
(40_cycle.md R87): a control-flow instruction "recursively invokes the fetch-decode-execute cycle once", and applies
its transfer when that nested cycle returns (10_state.md R33). It has no `slot`. -/

namespace Sys2Proof.Machine

/-- The control-flow instruction an instruction is, if it is one (44_control_flow.md R160). -/
def asControl : Instr → Option Control
  | .beq rs rt imm => some (.beq rs rt imm)
  | .bne rs rt imm => some (.bne rs rt imm)
  | .bgtz rs imm => some (.bgtz rs imm)
  | .blez rs imm => some (.blez rs imm)
  | .j address => some (.j address)
  | .jal address => some (.jal address)
  | .jr rs => some (.jr rs)
  | .sll .. | .srl .. | .add .. | .addu .. | .sub .. | .subu .. | .and .. | .or .. | .nor .. | .slt .. | .sltu .. => none
  | .addi .. | .addiu .. | .slti .. | .sltiu .. | .andi .. | .ori .. | .lui .. => none
  | .lw .. | .lbu .. | .lhu .. | .sb .. | .sh .. | .sw .. => none
  | .halt => none

/-- One cycle of the source's engine, given what a control-flow instruction does in it. -/
def cycleWith (onControl : Control → State → Result) (s : State) : Result :=
  match s.fetch with
  | .error k => .next (s.stop k)
  | .ok w =>
    match decodeWord w with
    | .error _ => illegalWord w s
    | .ok i =>
      match asControl i with
      | none => exec i s
      | some c => onControl c s

/-- The nested cycle, at the delay slot. A control-flow instruction there has no meaning in the source, and faults
(R162). -/
def slotCycle (s : State) : Result :=
  cycleWith (fun _ u => u.stopAfter (.fault .controlInDelaySlot u.pc)) s

/-- The transfer after the nested cycle has returned, unless that cycle ended the run (R86). -/
def transferAfter (p : Pending) : Result → Result
  | .next t => if t.run = .running then .next (t.resolve p) else .next t
  | .fault r => .fault r
  | .refused r => .refused r

/-- The source's cycle: a control-flow instruction runs its delay slot inside itself. -/
def nestedCycle (s : State) : Result :=
  cycleWith (fun c u => transferAfter { control := c, addr := u.pc, early := u.earlyOutcome c } (slotCycle u.advance)) s

end Sys2Proof.Machine
end

