-- ==== Sys2Proof/Safety.lean ====
section
/-! DEFINITION. The terms claims use: the invariant, what an instruction may change, the premises of a
well-behaved program (70_reset_and_hazards.md R228), and the fields of a word read as numbers. -/

namespace Sys2Proof.Safety

open Sys2Proof.Machine

/-! ## The invariant -/

/-- A conditional branch (44_control_flow.md R165 to R168). -/
def isConditional : Control → Bool
  | .beq .. | .bne .. | .bgtz .. | .blez .. => true
  | .j .. | .jal .. | .jr .. => false

/-- What holds of every state a run can reach. -/
structure Invariant (s : State) : Prop where
  /-- Memory is in its canonical form. -/
  memory : s.mem.wf
  /-- Under `R0_WRITABLE = false` nothing is ever stored at index 0 (10_state.md R23). -/
  zeroRegister : s.config.r0Writable = false → s.gpr[(0 : Reg)] = 0#32
  /-- While a transfer is pending, the next fetch is the delay slot's (44_control_flow.md R161). -/
  slotPc : ∀ p, s.slot = some p → s.run = .running → s.pc = p.addr + 4
  /-- A pending instruction was fetched from an aligned address (20_memory.md R46). -/
  slotAligned : ∀ p, s.slot = some p → p.addr.toNat % 4 = 0
  /-- A compare is kept from step 1 exactly for a conditional branch under
  `BRANCH_OPERANDS_AFTER_SLOT = false` (R163). -/
  slotEarly : ∀ p, s.slot = some p →
    (p.early.isSome ↔ isConditional p.control = true ∧ s.config.branchOperandsAfterSlot = false)
  /-- A halted machine stands at a sentinel (40_cycle.md R82). -/
  halted : s.run = .halted → s.mem.read32 s.pc = 0xFEEDFEED#32
  /-- The word an illegal stop records is no instruction (R84). -/
  illegal : ∀ w, s.run = .illegal w → ∃ e, decodeWord w = .error e

/-! ## What an instruction may change -/

/-- The register an instruction writes: the table of 10_state.md R26. jal's link is written by the transfer at the
end of its delay slot, not by its own step (44_control_flow.md R171). -/
def destReg : Instr → Option Reg
  | .sll rd _ _ | .srl rd _ _ => some rd
  | .add rd _ _ | .addu rd _ _ | .sub rd _ _ | .subu rd _ _ | .and rd _ _ | .or rd _ _ | .nor rd _ _ => some rd
  | .slt rd _ _ | .sltu rd _ _ => some rd
  | .addi rt _ _ | .addiu rt _ _ | .slti rt _ _ | .sltiu rt _ _ | .andi rt _ _ | .ori rt _ _ => some rt
  | .lui rt _ => some rt
  | .lw rt _ _ | .lbu rt _ _ | .lhu rt _ _ => some rt
  | .sb .. | .sh .. | .sw .. => none
  | .j .. | .jal .. | .jr .. | .beq .. | .bne .. | .blez .. | .bgtz .. => none
  | .halt => none

/-- The register the transfer of a control-flow instruction writes: 31 for jal (R26, R171). -/
def linkOf : Control → Option Reg
  | .jal .. => some 31
  | .beq .. | .bne .. | .bgtz .. | .blez .. | .j .. | .jr .. => none

/-- The registers a conditional branch compares (R165 to R168). -/
def comparedRegs : Control → List Reg
  | .beq rs rt _ | .bne rs rt _ => [rs, rt]
  | .bgtz rs _ | .blez rs _ => [rs]
  | .j .. | .jal .. | .jr .. => []

/-- Where an instruction stores and how many bytes (20_memory.md R42): the address is the one its meaning uses. -/
def storeAccess (s : State) : Instr → Option (Word × Nat)
  | .sb _ rs imm => some (s.effectiveAddress rs imm, 1)
  | .sh _ rs imm => some (s.effectiveAddress rs imm, 2)
  | .sw _ rs imm => some (s.effectiveAddress rs imm, 4)
  | .sll .. | .srl .. | .add .. | .addu .. | .sub .. | .subu .. | .and .. | .or .. | .nor .. | .slt .. | .sltu .. => none
  | .addi .. | .addiu .. | .slti .. | .sltiu .. | .andi .. | .ori .. | .lui .. => none
  | .lw .. | .lbu .. | .lhu .. => none
  | .j .. | .jal .. | .jr .. | .beq .. | .bne .. | .blez .. | .bgtz .. => none
  | .halt => none

/-- The access a load or store makes: its effective address and its width in bytes (R42). -/
def dataAccess (s : State) : Instr → Option (Word × Nat)
  | .lbu _ rs imm | .sb _ rs imm => some (s.effectiveAddress rs imm, 1)
  | .lhu _ rs imm | .sh _ rs imm => some (s.effectiveAddress rs imm, 2)
  | .lw _ rs imm | .sw _ rs imm => some (s.effectiveAddress rs imm, 4)
  | .sll .. | .srl .. | .add .. | .addu .. | .sub .. | .subu .. | .and .. | .or .. | .nor .. | .slt .. | .sltu .. => none
  | .addi .. | .addiu .. | .slti .. | .sltiu .. | .andi .. | .ori .. | .lui .. => none
  | .j .. | .jal .. | .jr .. | .beq .. | .bne .. | .blez .. | .bgtz .. => none
  | .halt => none

/-- The address lies outside the `n` bytes from `a` on, addresses modulo 2^32. -/
def Outside (a : Word) (n : Nat) (b : Nat) : Prop := ∀ k < n, b ≠ (a + BitVec.ofNat 32 k).toNat

/-- `t` is `s` after an instruction that writes `v` to register `rd` and does nothing else but move on. Index 0
follows 10_state.md R23 (the spec's own decision D1, log 19): under `R0_WRITABLE = false` the write is discarded and 0
is read. -/
structure WritesReg (s t : State) (rd : Reg) (v : Word) : Prop where
  dest : t.readReg rd = if rd = 0 ∧ s.config.r0Writable = false then 0#32 else v
  others : ∀ r, r ≠ rd → t.readReg r = s.readReg r
  pc : t.pc = s.pc + 4
  memory : ∀ b : Nat, t.mem.read b = s.mem.read b
  slot : t.slot = s.slot
  run : t.run = s.run
  config : t.config = s.config

/-- `t` is `s` after an instruction that stores bytes from address `a` on and does nothing else but move on. -/
structure StoresBytes (s t : State) (a : Word) (bytes : List Byte) : Prop where
  stored : ∀ k (h : k < bytes.length), t.mem.read8 (a + BitVec.ofNat 32 k) = bytes[k]
  others : ∀ b : Nat, Outside a bytes.length b → t.mem.read b = s.mem.read b
  registers : ∀ r, t.readReg r = s.readReg r
  pc : t.pc = s.pc + 4
  slot : t.slot = s.slot
  run : t.run = s.run
  config : t.config = s.config

/-! ## Premises of a well-behaved program (R228), at one state -/

/-- (FW): the address fetched next is 4-aligned and inside the fetch window. -/
def FW (s : State) : Prop := s.pc.toNat % 4 = 0 ∧ s.inFetchWindow s.pc = true

/-- The instruction at the pc, if the word there is one. -/
def instrAt (s : State) : Option Instr :=
  match decodeWord (s.mem.read32 s.pc) with
  | .ok i => some i
  | .error _ => none

/-- (DS): no control-flow instruction is in a delay slot. -/
def DS (s : State) : Prop := ∀ i, instrAt s = some i → s.slot ≠ none → asControl i = none

/-- (AL): every halfword access is 2-aligned and every word access is 4-aligned. -/
def AL (s : State) : Prop := ∀ i a n, instrAt s = some i → dataAccess s i = some (a, n) → a.toNat % n = 0

/-- The run has ended in a spec-defined fault. -/
def isFault : Run → Bool
  | .fault _ _ => true
  | .running | .halted | .illegal _ => false

/-! ## The fields of a word, read as numbers (30_encoding.md R61 to R63) -/

/-- Bits 31:26. -/
def opcodeAt (w : Word) : Nat := w.toNat / 2 ^ 26

/-- Bits 5:0. -/
def functAt (w : Word) : Nat := w.toNat % 2 ^ 6

/-- The register field whose lowest bit is `lo`. -/
def regAt (w : Word) (lo : Nat) : Reg := ⟨w.toNat / 2 ^ lo % 32, Nat.mod_lt _ (by decide)⟩

/-- Bits 10:6. -/
def shamtAt (w : Word) : Nat := w.toNat / 2 ^ 6 % 32

/-- Bits 15:0. -/
def immAt (w : Word) : BitVec 16 := BitVec.ofNat 16 (w.toNat % 2 ^ 16)

/-- Bits 25:0. -/
def addressAt (w : Word) : BitVec 26 := BitVec.ofNat 26 (w.toNat % 2 ^ 26)

/-- The bits of a word an instruction reads: all but its don't-care fields (R67). -/
def usedBits : Instr → Word
  | .sll .. | .srl .. => 0xFC1FFFFF#32
  | .add .. | .addu .. | .sub .. | .subu .. | .and .. | .or .. | .nor .. | .slt .. | .sltu .. => 0xFFFFF83F#32
  | .jr .. => 0xFFE0003F#32
  | .lui .. => 0xFC1FFFFF#32
  | .blez .. | .bgtz .. => 0xFFE0FFFF#32
  | .addi .. | .addiu .. | .slti .. | .sltiu .. | .andi .. | .ori .. => 0xFFFFFFFF#32
  | .lw .. | .lbu .. | .lhu .. | .sb .. | .sh .. | .sw .. => 0xFFFFFFFF#32
  | .j .. | .jal .. | .beq .. | .bne .. => 0xFFFFFFFF#32
  | .halt => 0xFFFFFFFF#32

/-- The illegal opcodes: "`0x01`, `0x0E`, `0x10`–`0x22`, `0x26`, `0x27`, `0x2A` and `0x2C`–`0x3F`" (R71). -/
def illegalOpcodes : List Nat :=
  [0x01, 0x0E] ++ List.range' 0x10 19 ++ [0x26, 0x27, 0x2A] ++ List.range' 0x2C 20

/-- The illegal functs under opcode 0: "`0x01`, `0x03`–`0x07`, `0x09`–`0x1F`, `0x26`, `0x28`, `0x29` and
`0x2C`–`0x3F`" (R71). -/
def illegalFuncts : List Nat :=
  [0x01] ++ List.range' 0x03 5 ++ List.range' 0x09 23 ++ [0x26, 0x28, 0x29] ++ List.range' 0x2C 20

/-! ## Comparing states that differ in a parameter or in the slot -/

/-- The state under another setting of `R0_WRITABLE`. -/
def withR0Writable (s : State) (b : Bool) : State := s.setConfig { s.config with r0Writable := b }

/-- The state under another setting of `BRANCH_OPERANDS_AFTER_SLOT`. -/
def withCompareAfterSlot (s : State) (b : Bool) : State :=
  s.setConfig { s.config with branchOperandsAfterSlot := b }

end Sys2Proof.Safety
end

