-- ==== Sys2Proof/Certificates/Slice0/Obligations.lean ====
section
/-! DEFINITION. What is claimed of the machine. Sums, shifts and targets are written as exact integers, narrowed once
at the end, so that a claim does not repeat the definition it is about. -/

open Sys2Proof Sys2Proof.Machine Sys2Proof.Safety

/-! ## The decoder and the encoder (30_encoding.md) -/

/-- R65: within each format the fields partition the word, so re-encoding the fields of any one format reproduces
the word; across formats they overlap, `imm` covering rd, shamt and funct, and `address` covering rs, rt and imm. -/
def Obligations.FieldsRebuildTheWord : Prop :=
  (∀ w, let f := decodeFields w
    encodeR f.opcode f.rs f.rt f.rd f.shamt f.funct = w ∧ encodeI f.opcode f.rs f.rt f.imm = w ∧
      encodeJ f.opcode f.address = w) ∧
  (∀ op rs rt rd sh fn, let f := decodeFields (encodeR op rs rt rd sh fn)
    f.opcode = op ∧ f.rs = rs ∧ f.rt = rt ∧ f.rd = rd ∧ f.shamt = sh ∧ f.funct = fn) ∧
  (∀ op rs rt imm, let f := decodeFields (encodeI op rs rt imm)
    f.opcode = op ∧ f.rs = rs ∧ f.rt = rt ∧ f.imm = imm) ∧
  (∀ op address, let f := decodeFields (encodeJ op address)
    f.opcode = op ∧ f.address = address) ∧
  (∀ w, let f := decodeFields w
    f.imm.toNat = f.rd.toNat * 2 ^ 11 + f.shamt.toNat * 2 ^ 6 + f.funct.toNat ∧
      f.address.toNat = f.rs.toNat * 2 ^ 21 + f.rt.toNat * 2 ^ 16 + f.imm.toNat)

/-- R64: the decoder takes all eight fields from every word, each from its bit range. -/
def Obligations.DecoderTakesEightFields : Prop :=
  ∀ w, let f := decodeFields w
    f.opcode.toNat = w.toNat / 2 ^ 26 ∧ f.rs.toNat = w.toNat / 2 ^ 21 % 2 ^ 5 ∧
    f.rt.toNat = w.toNat / 2 ^ 16 % 2 ^ 5 ∧ f.rd.toNat = w.toNat / 2 ^ 11 % 2 ^ 5 ∧
    f.shamt.toNat = w.toNat / 2 ^ 6 % 2 ^ 5 ∧ f.funct.toNat = w.toNat % 2 ^ 6 ∧
    f.imm.toNat = w.toNat % 2 ^ 16 ∧ f.address.toNat = w.toNat % 2 ^ 26

/-- Decoding an encoded well-formed instruction gives it back, with every operand at every value its field admits,
and leaves the bytes that follow. -/
def Obligations.EncodeThenDecode : Prop :=
  ∀ i : Instr, i.wf = true →
    decodeWord (encode i) = .ok i ∧ ∀ rest, decode (encodeBytes i ++ rest) = .ok (i, rest)

/-- What the decoder reads is well-formed, and its encoding is the decoded word with the don't-care fields zero: no bit
an instruction reads is dropped, and no two instructions share a word. R67 accepts any value of those fields; that the
encoding has 0 there is the encoder's choice, the assembler convention of R74 (D12; log 18). -/
def Obligations.DecodeThenEncode : Prop :=
  ∀ w i, decodeWord w = .ok i → i.wf = true ∧ encode i = w &&& usedBits i

/-- R67, R68, R69, R70: a word belongs to exactly the row of spec/opcode_table.json whose instruction the decoder
reads from it, and to no row when the decoder rejects it. The opcode values are the spec's own decision D11
(log 8). -/
def Obligations.EveryWordHasItsTableRow : Prop :=
  ∀ w, (opcodeTable.filter fun r => r.matches w).map (fun r => r.mnemonic) =
    match decodeWord w with
    | .ok i => [i.mnemonic]
    | .error _ => []

/-- R83, R67: beside the sentinel, which operation a word is depends on opcode and, when opcode is 0, on funct, and
on no other bit. -/
def Obligations.DispatchReadsOpcodeAndFunctOnly : Prop :=
  ∀ w w' : Word, w ≠ sentinel → w' ≠ sentinel → opcodeAt w = opcodeAt w' →
    (opcodeAt w = 0 → functAt w = functAt w') →
    (decodeWord w).toOption.map Instr.mnemonic = (decodeWord w').toOption.map Instr.mnemonic

/-- R71: a word is rejected exactly when it is not the sentinel and its opcode, or its funct under opcode 0, is one
of the 44 and 52 illegal values. The values are the spec's own decision D11 (log 8). -/
def Obligations.IllegalWordsAreTheListedOnes : Prop :=
  (∀ w, (∃ e, decodeWord w = .error e) ↔
    w ≠ 0xFEEDFEED#32 ∧ (opcodeAt w ∈ illegalOpcodes ∨ opcodeAt w = 0 ∧ functAt w ∈ illegalFuncts)) ∧
  illegalOpcodes.length = 44 ∧ illegalFuncts.length = 52

/-- Words of 95_test_vectors.md, one of each family, decode to the instruction the spec says. -/
def Obligations.WrittenOutWordsDecode : Prop :=
  decodeWord 0x00642820#32 = .ok (.add 5 3 4) ∧ decodeWord 0x000428C0#32 = .ok (.sll 5 4 3) ∧
  decodeWord 0x20220005#32 = .ok (.addi 2 1 5) ∧ decodeWord 0x3C221234#32 = .ok (.lui 2 0x1234) ∧
  decodeWord 0x8C22FFFC#32 = .ok (.lw 2 1 0xFFFC) ∧ decodeWord 0xA4220002#32 = .ok (.sh 2 1 2) ∧
  decodeWord 0x1422FFFD#32 = .ok (.bne 1 2 0xFFFD) ∧ decodeWord 0x0C000010#32 = .ok (.jal 0x10) ∧
  decodeWord 0x03E0F808#32 = .ok (.jr 31) ∧ decodeWord 0xFEEDFEED#32 = .ok .halt

/-! ## Memory (20_memory.md) -/

/-- R43 (the spec's own decision D2, log 7): every access is big-endian, its addresses modulo 2^32, and a write
changes its own bytes only. -/
def Obligations.AccessesAreBigEndian : Prop :=
  (∀ (m : Memory) (a : Word),
    (m.read16 a).toNat = (m.read8 a).toNat * 2 ^ 8 + (m.read8 (a + 1)).toNat ∧
    (m.read32 a).toNat = (m.read8 a).toNat * 2 ^ 24 + (m.read8 (a + 1)).toNat * 2 ^ 16 +
      (m.read8 (a + 2)).toNat * 2 ^ 8 + (m.read8 (a + 3)).toNat) ∧
  (∀ (m : Memory) (a : Word) (v : BitVec 16),
    ((m.write16 a v).read8 a).toNat = v.toNat / 2 ^ 8 ∧ ((m.write16 a v).read8 (a + 1)).toNat = v.toNat % 2 ^ 8 ∧
    ∀ b, Outside a 2 b → (m.write16 a v).read b = m.read b) ∧
  (∀ (m : Memory) (a : Word) (v : BitVec 32),
    ((m.write32 a v).read8 a).toNat = v.toNat / 2 ^ 24 ∧
    ((m.write32 a v).read8 (a + 1)).toNat = v.toNat / 2 ^ 16 % 2 ^ 8 ∧
    ((m.write32 a v).read8 (a + 2)).toNat = v.toNat / 2 ^ 8 % 2 ^ 8 ∧
    ((m.write32 a v).read8 (a + 3)).toNat = v.toNat % 2 ^ 8 ∧
    ∀ b, Outside a 4 b → (m.write32 a v).read b = m.read b)

/-- R57 (D2): after a word is stored, a halfword load sees its half and a halfword or byte store into it changes
its own bytes of the word only. -/
def Obligations.MixedWidthAccessesShareBytes : Prop :=
  ∀ (m : Memory) (a : Word) (v : BitVec 32) (h : BitVec 16) (b : BitVec 8),
    (m.write32 a v).read32 a = v ∧
    ((m.write32 a v).read16 a).toNat = v.toNat / 2 ^ 16 ∧
    ((m.write32 a v).read16 (a + 2)).toNat = v.toNat % 2 ^ 16 ∧
    (((m.write32 a v).write16 a h).read32 a).toNat = h.toNat * 2 ^ 16 + v.toNat % 2 ^ 16 ∧
    (((m.write32 a v).write16 (a + 2) h).read32 a).toNat = v.toNat / 2 ^ 16 * 2 ^ 16 + h.toNat ∧
    (((m.write32 a v).write8 (a + 3) b).read32 a).toNat = v.toNat / 2 ^ 8 * 2 ^ 8 + b.toNat ∧
    (((m.write32 a v).write8 a b).read32 a).toNat = b.toNat * 2 ^ 24 + v.toNat % 2 ^ 24

/-- The canonical form is canonical: two memories in it that read alike at every address are the same list. -/
def Obligations.EqualReadsMeanEqualMemories : Prop :=
  ∀ m m' : Memory, m.wf → m'.wf → (∀ a, a < 2 ^ 32 → m.read a = m'.read a) → m = m'

/-! ## Register-format instructions (41_register_alu.md)

Here and in every statement about a register result, what a write to index 0 does (`WritesReg.dest`) is R23's
parameter, the spec's own decision D1 (log 19). -/

/-- R101, whole: add is opcode 0 and funct 0x20, every other field free; its result is the sum modulo 2^32, it never
stops, and nothing but `rd` and the pc changes. What a write to index 0 does is R23's parameter, the spec's own
decision D1 (log 19). -/
def Obligations.AddRule : Prop :=
  (∀ w, opcodeAt w = 0x00 → functAt w = 0x20 → decodeWord w = .ok (.add (regAt w 11) (regAt w 21) (regAt w 16))) ∧
  ∀ rd rs rt s, ∃ t, exec (.add rd rs rt) s = .next t ∧
    WritesReg s t rd (BitVec.ofNat 32 ((s.readReg rs).toNat + (s.readReg rt).toNat))

/-- R102, R103, R104: addu is add; sub and subu are the difference modulo 2^32; none stops. -/
def Obligations.AdduSubSubuResults : Prop :=
  ∀ rd rs rt s,
    (∃ t, exec (.addu rd rs rt) s = .next t ∧
      WritesReg s t rd (BitVec.ofNat 32 ((s.readReg rs).toNat + (s.readReg rt).toNat))) ∧
    (∃ t, exec (.sub rd rs rt) s = .next t ∧
      WritesReg s t rd (BitVec.ofInt 32 ((s.readReg rs).toNat - (s.readReg rt).toNat))) ∧
    (∃ t, exec (.subu rd rs rt) s = .next t ∧
      WritesReg s t rd (BitVec.ofInt 32 ((s.readReg rs).toNat - (s.readReg rt).toNat)))

/-- R105, R106, R107: bit by bit, and, or, and the complement of or. -/
def Obligations.BitwiseResults : Prop :=
  ∀ rd rs rt s,
    (∃ t v, exec (.and rd rs rt) s = .next t ∧ WritesReg s t rd v ∧
      ∀ k, v.getLsbD k = ((s.readReg rs).getLsbD k && (s.readReg rt).getLsbD k)) ∧
    (∃ t v, exec (.or rd rs rt) s = .next t ∧ WritesReg s t rd v ∧
      ∀ k, v.getLsbD k = ((s.readReg rs).getLsbD k || (s.readReg rt).getLsbD k)) ∧
    (∃ t v, exec (.nor rd rs rt) s = .next t ∧ WritesReg s t rd v ∧
      ∀ k < 32, v.getLsbD k = !((s.readReg rs).getLsbD k || (s.readReg rt).getLsbD k))

/-- R108, R109: sll multiplies by 2^shamt modulo 2^32, srl divides by it, filling with zeros. The rules give shamt 0 to
31; a shift by 32 or more cannot be encoded (R108), and its meaning here is the model's choice (log 22). -/
def Obligations.ShiftResults : Prop :=
  ∀ rd rt shamt s,
    (∃ t, exec (.sll rd rt shamt) s = .next t ∧
      WritesReg s t rd (BitVec.ofNat 32 ((s.readReg rt).toNat * 2 ^ shamt))) ∧
    (∃ t, exec (.srl rd rt shamt) s = .next t ∧
      WritesReg s t rd (BitVec.ofNat 32 ((s.readReg rt).toNat / 2 ^ shamt)))

/-- R110, R111: slt compares the signed readings, sltu the unsigned ones; the result is 1 or 0. -/
def Obligations.SetLessThanResults : Prop :=
  ∀ rd rs rt s,
    (∃ t, exec (.slt rd rs rt) s = .next t ∧
      WritesReg s t rd (if (s.readReg rs).toInt < (s.readReg rt).toInt then 1 else 0)) ∧
    (∃ t, exec (.sltu rd rs rt) s = .next t ∧
      WritesReg s t rd (if (s.readReg rs).toNat < (s.readReg rt).toNat then 1 else 0))

/-! ## Immediate-format instructions (42_immediate_alu.md) -/

/-- R121, whole: addi is opcode 0x08; its result is the sum with the sign-extended immediate modulo 2^32, it never
stops, and nothing but `rt` and the pc changes. What a write to index 0 does is R23's parameter, the spec's own
decision D1 (log 19). -/
def Obligations.AddiRule : Prop :=
  (∀ w, opcodeAt w = 0x08 → decodeWord w = .ok (.addi (regAt w 16) (regAt w 21) (immAt w))) ∧
  ∀ rt rs imm s, ∃ t, exec (.addi rt rs imm) s = .next t ∧
    WritesReg s t rt (BitVec.ofInt 32 ((s.readReg rs).toNat + imm.toInt))

/-- R122, R123, R124, R125: addiu sign-extends, andi and ori zero-extend, lui shifts left by 16 and reads no
register. -/
def Obligations.ImmediateResults : Prop :=
  ∀ rt rs (imm : BitVec 16) s,
    (∃ t, exec (.addiu rt rs imm) s = .next t ∧
      WritesReg s t rt (BitVec.ofInt 32 ((s.readReg rs).toNat + imm.toInt))) ∧
    (∃ t, exec (.andi rt rs imm) s = .next t ∧
      WritesReg s t rt (BitVec.ofNat 32 ((s.readReg rs).toNat % 2 ^ 16 &&& imm.toNat))) ∧
    (∃ t, exec (.ori rt rs imm) s = .next t ∧
      WritesReg s t rt (BitVec.ofNat 32 ((s.readReg rs).toNat ||| imm.toNat))) ∧
    (∃ t, exec (.lui rt imm) s = .next t ∧ WritesReg s t rt (BitVec.ofNat 32 (imm.toNat * 2 ^ 16)))

/-- R126, R127: slti compares signed; sltiu sign-extends the immediate and then compares unsigned. -/
def Obligations.SetLessThanImmediateResults : Prop :=
  ∀ rt rs (imm : BitVec 16) s,
    (∃ t, exec (.slti rt rs imm) s = .next t ∧
      WritesReg s t rt (if (s.readReg rs).toInt < imm.toInt then 1 else 0)) ∧
    (∃ t, exec (.sltiu rt rs imm) s = .next t ∧
      WritesReg s t rt (if (s.readReg rs).toNat < (BitVec.ofInt 32 imm.toInt).toNat then 1 else 0))

/-! ## Loads and stores (43_load_store.md) -/

/-- R140, R41: the effective address is base plus sign-extended displacement, modulo 2^32. -/
def Obligations.EffectiveAddressWraps : Prop :=
  ∀ (s : State) (rs : Reg) (imm : BitVec 16), s.effectiveAddress rs imm = BitVec.ofInt 32 ((s.readReg rs).toNat + imm.toInt)

/-- R141: lbu loads the byte, zero-extended, at any address. -/
def Obligations.LoadByteResult : Prop :=
  ∀ rt rs imm s, ∃ t, exec (.lbu rt rs imm) s = .next t ∧
    WritesReg s t rt (BitVec.ofNat 32 (s.mem.read8 (s.effectiveAddress rs imm)).toNat)

/-- R142: an aligned lhu loads the two bytes, zero-extended; their big-endian order is R43, the spec's own decision D2
(log 7). -/
def Obligations.LoadHalfwordResult : Prop :=
  ∀ rt rs imm s, let a := s.effectiveAddress rs imm
    a.toNat % 2 = 0 → ∃ t, exec (.lhu rt rs imm) s = .next t ∧
      WritesReg s t rt (BitVec.ofNat 32 ((s.mem.read8 a).toNat * 2 ^ 8 + (s.mem.read8 (a + 1)).toNat))

/-- R143: an aligned lw loads the four bytes; their big-endian order is R43, the spec's own decision D2 (log 7). -/
def Obligations.LoadWordResult : Prop :=
  ∀ rt rs imm s, let a := s.effectiveAddress rs imm
    a.toNat % 4 = 0 → ∃ t, exec (.lw rt rs imm) s = .next t ∧
      WritesReg s t rt (BitVec.ofNat 32 ((s.mem.read8 a).toNat * 2 ^ 24 + (s.mem.read8 (a + 1)).toNat * 2 ^ 16 +
        (s.mem.read8 (a + 2)).toNat * 2 ^ 8 + (s.mem.read8 (a + 3)).toNat))

/-- R144: sb stores the low byte of `rt` at any address, and nothing else changes. -/
def Obligations.StoreByteResult : Prop :=
  ∀ rt rs imm s, ∃ t, exec (.sb rt rs imm) s = .next t ∧
    StoresBytes s t (s.effectiveAddress rs imm) [BitVec.ofNat 8 (s.readReg rt).toNat]

/-- R145: an aligned sh stores the low two bytes of `rt`, and nothing else changes; that the higher comes first is R43,
the spec's own decision D2 (log 7). -/
def Obligations.StoreHalfwordResult : Prop :=
  ∀ rt rs imm s, let a := s.effectiveAddress rs imm
    let v := (s.readReg rt).toNat
    a.toNat % 2 = 0 → ∃ t, exec (.sh rt rs imm) s = .next t ∧
      StoresBytes s t a [BitVec.ofNat 8 (v / 2 ^ 8), BitVec.ofNat 8 v]

/-- R146: an aligned sw stores all four bytes of `rt`, and nothing else changes; that the highest comes first is R43,
the spec's own decision D2 (log 7). -/
def Obligations.StoreWordResult : Prop :=
  ∀ rt rs imm s, let a := s.effectiveAddress rs imm
    let v := (s.readReg rt).toNat
    a.toNat % 4 = 0 → ∃ t, exec (.sw rt rs imm) s = .next t ∧
      StoresBytes s t a
        [BitVec.ofNat 8 (v / 2 ^ 24), BitVec.ofNat 8 (v / 2 ^ 16), BitVec.ofNat 8 (v / 2 ^ 8), BitVec.ofNat 8 v]

/-- R45 (the spec's own decision D3, log 10): a misaligned halfword or word access stops the run with the address,
and reads and writes nothing. -/
def Obligations.MisalignedAccessesStop : Prop :=
  ∀ rt rs imm s, let a := s.effectiveAddress rs imm
    let stopped : State := { s with pc := s.pc + 4, run := .fault .dataMisaligned a }
    (a.toNat % 2 ≠ 0 → exec (.lhu rt rs imm) s = .next stopped ∧ exec (.sh rt rs imm) s = .next stopped) ∧
    (a.toNat % 4 ≠ 0 → exec (.lw rt rs imm) s = .next stopped ∧ exec (.sw rt rs imm) s = .next stopped)

/-! ## Control flow (44_control_flow.md) -/

/-- R161 step 1 for the conditional branches: pc moves on and the slot holds the branch. The compare's outcome is
kept only when `BRANCH_OPERANDS_AFTER_SLOT` is false (R163, D6; the model's form of it is log 13). -/
def Obligations.BranchesEnterTheDelaySlot : Prop :=
  ∀ rs rt imm s, s.slot = none →
    let entered (c : Control) (taken : Bool) : State :=
      { s with
        pc := s.pc + 4
        slot := some ⟨c, s.pc, if s.config.branchOperandsAfterSlot then none else some taken⟩ }
    exec (.beq rs rt imm) s = .next (entered (.beq rs rt imm) (decide (s.readReg rs = s.readReg rt))) ∧
    exec (.bne rs rt imm) s = .next (entered (.bne rs rt imm) (decide (s.readReg rs ≠ s.readReg rt))) ∧
    exec (.bgtz rs imm) s = .next (entered (.bgtz rs imm) (decide ((s.readReg rs).toInt > 0))) ∧
    exec (.blez rs imm) s = .next (entered (.blez rs imm) (decide ((s.readReg rs).toInt ≤ 0)))

/-- R161 step 1 for the jumps: pc moves on and the slot holds the jump; no register is written yet. -/
def Obligations.JumpsEnterTheDelaySlot : Prop :=
  ∀ address rs s, s.slot = none →
    let entered (c : Control) : State := { s with pc := s.pc + 4, slot := some ⟨c, s.pc, none⟩ }
    exec (.j address) s = .next (entered (.j address)) ∧
    exec (.jal address) s = .next (entered (.jal address)) ∧
    exec (.jr rs) s = .next (entered (.jr rs))

/-- R162 (the spec's own decision D5, log 10): a control-flow instruction in a delay slot stops the run with its
own address; neither transfer is applied. -/
def Obligations.ControlInDelaySlotStops : Prop :=
  ∀ i c p s, asControl i = some c → s.slot = some p →
    exec i s = .next { s with pc := s.pc + 4, run := .fault .controlInDelaySlot s.pc }

/-- R164 to R168, R163: at the end of a delay slot that ran without stopping, a conditional branch goes to the
post-delay-slot pc plus four times its signed immediate if it is taken, and stays there if not. It is taken on the
registers after the slot, unless step 1 kept its compare (the model's form of R163's other setting, log 13). -/
def Obligations.ConditionalBranchOutcome : Prop :=
  ∀ s t p i, s.run = .running → s.slot = some p → FW s → instrAt s = some i → exec i s = .next t → t.run = .running →
    let after (taken : Bool) (imm : BitVec 16) : State :=
      { t with pc := if taken then BitVec.ofInt 32 (t.pc.toNat + 4 * imm.toInt) else t.pc, slot := none }
    t.pc = s.pc + 4 ∧
    (∀ rs rt imm, p.control = .beq rs rt imm →
      step s = .next (after (p.early.getD (decide (t.readReg rs = t.readReg rt))) imm)) ∧
    (∀ rs rt imm, p.control = .bne rs rt imm →
      step s = .next (after (p.early.getD (decide (t.readReg rs ≠ t.readReg rt))) imm)) ∧
    (∀ rs imm, p.control = .bgtz rs imm →
      step s = .next (after (p.early.getD (decide ((t.readReg rs).toInt > 0))) imm)) ∧
    (∀ rs imm, p.control = .blez rs imm →
      step s = .next (after (p.early.getD (decide ((t.readReg rs).toInt ≤ 0))) imm))

/-- R169 to R172, R25: at the end of a delay slot that ran without stopping, j and jal go to their address in the
256 MiB region of the post-delay-slot pc, jal writes that pc to register 31, and jr goes to what `rs` holds now. The
link index is the spec's general knowledge (log 9). -/
def Obligations.JumpOutcome : Prop :=
  ∀ s t p i, s.run = .running → s.slot = some p → FW s → instrAt s = some i → exec i s = .next t → t.run = .running →
    let region (address : BitVec 26) : Word := BitVec.ofNat 32 (t.pc.toNat / 2 ^ 28 * 2 ^ 28 + address.toNat * 4)
    t.pc = s.pc + 4 ∧
    (∀ address, p.control = .j address → step s = .next { t with pc := region address, slot := none }) ∧
    (∀ rs, p.control = .jr rs → step s = .next { t with pc := t.readReg rs, slot := none }) ∧
    (∀ address, p.control = .jal address → ∃ u, step s = .next u ∧ u.pc = region address ∧
      u.readReg 31 = t.pc ∧ (∀ r, r ≠ 31 → u.readReg r = t.readReg r) ∧
      (∀ b : Nat, u.mem.read b = t.mem.read b) ∧ u.slot = none ∧ u.run = .running ∧ u.config = t.config)

/-- R223: the instruction at A + 4 after a control-flow instruction at A runs exactly once before the transfer takes
effect, whatever the branch's outcome: step 1 leaves registers and memory alone and sends the fetch to A + 4; step 2
is that instruction's own execution followed by the transfer, and leaves no transfer pending. The two steps with the
slot between them are the spec's own rendering (R161, D10; log 14), and the compare kept in the slot is the model's
(log 13). -/
def Obligations.DelaySlotRunsExactlyOnce : Prop :=
  ∀ s i c, s.run = .running → s.slot = none → FW s → instrAt s = some i → asControl i = some c →
    let p : Pending := ⟨c, s.pc, s.earlyOutcome c⟩
    let s1 : State := { s with pc := s.pc + 4, slot := some p }
    step s = .next s1 ∧
    ∀ i' u, FW s1 → instrAt s1 = some i' → exec i' s1 = .next u → u.run = .running →
      step s1 = .next { u.resolve p with slot := none }

/-- R160: the control-flow instructions are these seven; none reads or writes memory, and none writes a register
but jal, whose transfer writes register 31 (the index is the spec's general knowledge, log 9). -/
def Obligations.ControlFlowTouchesOnlyTheLink : Prop :=
  (∀ i : Instr, (∃ c, asControl i = some c) ↔
    i.mnemonic ∈ ["beq", "bne", "bgtz", "blez", "j", "jal", "jr"]) ∧
  (∀ i c s t, asControl i = some c → exec i s = .next t →
    t.mem = s.mem ∧ (∀ r, t.readReg r = s.readReg r) ∧ ∀ m, exec i (s.setMem m) = .next (t.setMem m)) ∧
  (∀ (s : State) (p : Pending), (s.resolve p).mem = s.mem ∧ (∀ m, (s.setMem m).resolve p = (s.resolve p).setMem m) ∧
    ∀ r, (r = 31 → ∀ address, p.control ≠ .jal address) → (s.resolve p).readReg r = s.readReg r)

/-! ## The step (40_cycle.md) -/

/-- R80: when the bytes at the pc decode to an instruction, the step is that instruction's execution, and then, if a
transfer was pending and the run goes on, that transfer. -/
def Obligations.StepRunsTheDecodedInstruction : Prop :=
  ∀ s i, s.run = .running → FW s →
    decode [s.mem.read8 s.pc, s.mem.read8 (s.pc + 1), s.mem.read8 (s.pc + 2), s.mem.read8 (s.pc + 3)] = .ok (i, []) →
    ∃ t, exec i s = .next t ∧ step s = .next
      (match s.slot with
        | none => t
        | some p => if t.run = .running then { t.resolve p with slot := none } else t)

/-- R46, R195 (D4, D13, log 10): before anything is read, a misaligned pc stops the run, then a pc outside the fetch
window does, each with the pc and nothing else changed. -/
def Obligations.FetchIsAdmittedInOrder : Prop :=
  ∀ s, s.run = .running →
    (s.pc.toNat % 4 ≠ 0 → step s = .next { s with run := .fault .fetchMisaligned s.pc }) ∧
    (s.pc.toNat % 4 = 0 → (∀ r ∈ s.config.fetchWindow, ¬ (r.lo ≤ s.pc.toNat ∧ s.pc.toNat < r.hi)) →
      step s = .next { s with run := .fault .fetchOutOfRange s.pc })

/-- R82, R86: the sentinel halts the run, in a delay slot too; registers, memory and the pending transfer stay as
they are, and pc stays at the sentinel (the spec's own decision D8, log 11). -/
def Obligations.SentinelHalts : Prop :=
  (∀ s, exec .halt s = .next { s with run := .halted }) ∧
  ∀ s, s.run = .running → FW s → s.mem.read32 s.pc = 0xFEEDFEED#32 → step s = .next { s with run := .halted }

/-- R84, R86: a word that is no instruction stops the run with the word, in a delay slot too; nothing else changes
but the pc (log 11). -/
def Obligations.IllegalWordStops : Prop :=
  ∀ s e, s.run = .running → FW s → decodeWord (s.mem.read32 s.pc) = .error e →
    step s = .next { s with pc := s.pc + 4, run := .illegal (s.mem.read32 s.pc) }

/-- R81: a state whose run is over has no step (the model answers a fault that says so, log 1); and nothing bounds a
run, for a `j` to its own address with a nop in its slot runs for ever and shows nothing. -/
def Obligations.TerminalStatesHaveNoStep : Prop :=
  (∀ s : State, s.run ≠ .running → step s = .fault (.noStep s.run)) ∧
  ∀ n, ∃ t : State, core.run n (State.load true true [encode (.j 0), encode (.sll 0 0 0)]) = .next t ∧
    t.run = .running ∧ t.observe = none

/-- Every instruction answers a next state in every state, and a step does exactly while the run goes on: nothing is
refused. -/
def Obligations.EveryInstructionAnswersNext : Prop :=
  (∀ i s, ∃ t, exec i s = .next t) ∧ ∀ s, (∃ t, step s = .next t) ↔ s.run = .running

/-- R193, R86: a step that ends the run changes the run state and at most moves the pc past the stopping word: every
register, byte of memory and the pending transfer stay as they were. -/
def Obligations.StopsArePrecise : Prop :=
  ∀ s t, step s = .next t → t.run ≠ .running →
    t = { s with pc := t.pc, run := t.run } ∧ (t.pc = s.pc ∨ t.pc = s.pc + 4)

/-- R26: a step writes at most the destination register of its instruction and, when jal's transfer ends it,
register 31. The link index is the spec's general knowledge (log 9). -/
def Obligations.OnlyDestinationRegistersChange : Prop :=
  ∀ s t r, step s = .next t → (∀ i, instrAt s = some i → destReg i ≠ some r) →
    (∀ p, s.slot = some p → linkOf p.control ≠ some r) → t.readReg r = s.readReg r

/-- R42: a step changes no byte of memory but those its sb, sh or sw stores to. -/
def Obligations.OnlyStoresChangeMemory : Prop :=
  ∀ s t b, step s = .next t →
    (∀ i a n, instrAt s = some i → storeAccess s i = some (a, n) → Outside a n b) → t.mem.read b = s.mem.read b

/-- R35: no instruction changes the configuration. -/
def Obligations.ConfigurationNeverChanges : Prop :=
  ∀ s t, step s = .next t → t.config = s.config

/-- R28: a step that goes on with no transfer pending adds 4 to pc, modulo 2^32. -/
def Obligations.PcAdvancesByFour : Prop :=
  ∀ s t, step s = .next t → s.slot = none → t.run = .running → t.pc.toNat = (s.pc.toNat + 4) % 2 ^ 32

/-- R29, R173: pc stays a multiple of 4 but through jr. -/
def Obligations.PcStaysAlignedButForJr : Prop :=
  ∀ s t, step s = .next t → s.pc.toNat % 4 = 0 → (∀ p rs, s.slot = some p → p.control ≠ .jr rs) →
    t.pc.toNat % 4 = 0

/-- The invariant: canonical memory, index 0 hard-wired when it is, a pending transfer's slot fetched next, and the
stops true to what they record. -/
def Obligations.StepKeepsTheInvariant : Prop :=
  ∀ s t, Invariant s → step s = .next t → Invariant t

/-- The invariant holds after reset. -/
def Obligations.ResetMeetsTheInvariant : Prop := Invariant State.reset

/-! ## Reset, load and observation (70_reset_and_hazards.md, 60_exceptions.md) -/

/-- The invariant holds after every load, under all parameter settings. -/
def Obligations.LoadedImageMeetsTheInvariant : Prop :=
  ∀ r0 after image, Invariant (State.load r0 after image)

/-- R37, R44, R56, R220 (D4, D7, D9, D10: log 5, log 6): after a load, image word k stands at 4k and reads back
unchanged, every other byte and every register is 0, pc is 0, no transfer is pending, the run goes on, and the
fetch window is the image. -/
def Obligations.LoadPlacesTheImage : Prop :=
  ∀ r0 after (image : List Word), image.length ≤ 2 ^ 30 →
    let s := State.load r0 after image
    (∀ k (h : k < image.length), s.mem.read32 (BitVec.ofNat 32 (4 * k)) = image[k]) ∧
    (∀ b, 4 * image.length ≤ b → s.mem.read b = 0#8) ∧
    (∀ r, s.readReg r = 0#32) ∧ s.pc = 0#32 ∧ s.slot = none ∧ s.run = .running ∧
    (∀ a, s.inFetchWindow a = true ↔ a.toNat < 4 * image.length)

/-- R221 (D4): reset with nothing placed is the load of the empty image, and its first fetch is out of range. -/
def Obligations.EmptyImageStopsAtOnce : Prop :=
  State.load true true [] = State.reset ∧
  step State.reset = .next { State.reset with run := .fault .fetchOutOfRange 0#32 }

/-- R198, R220: the three startup errors exit with status 1 and dump zeroed registers and empty memory, and the core
never starts; a file of big-endian words starts it on those words. That the dump's registers stand in index order is
the model's choice (log 23). -/
def Obligations.StartupErrors : Prop :=
  let failure : Startup := .failed ⟨1, some ⟨regNames.toList.map fun n => (n, 0#32), []⟩⟩
  start .wrongArgumentCount = failure ∧ start .unreadableFile = failure ∧
  (∀ bytes : List Byte, bytes.length % 4 ≠ 0 → start (.file bytes) = failure) ∧
  ∀ image : List Word, start (.file (image.flatMap bytesOfWord)) = .started (State.load true true image)

/-- R192, R200 (D14, D18: log 16, log 17): a run that goes on shows nothing; a halt shows exit status 0, the memory and the
32 registers under their names; an illegal word 127 and no dump; a fault a status that is not 0 and no dump. That the
registers stand in index order is the model's choice (log 23). -/
def Obligations.ObservationOfEachStop : Prop :=
  ∀ s : State,
    (s.run = .running → s.observe = none) ∧
    (s.run = .halted → ∃ d, s.observe = some ⟨0, some d⟩ ∧ d.memory = s.mem ∧
      d.registers.length = 32 ∧ ∀ r : Reg, d.registers[r.val]? = some (regNames[r], s.readReg r)) ∧
    (∀ w, s.run = .illegal w → s.observe = some ⟨127, none⟩) ∧
    (∀ k v, s.run = .fault k v → ∃ n, n ≠ 0 ∧ s.observe = some ⟨n, none⟩)

/-! ## Whole-machine rules -/

/-- R228: under (DS), (AL) and (FW) a step ends in no fault. -/
def Obligations.NoFaultForWellBehavedPrograms : Prop :=
  ∀ s, s.run = .running → FW s → DS s → AL s → ∃ t, step s = .next t ∧ isFault t.run = false

/-- R23 (D1, log 19), R228 (ZR): where index 0 holds 0 before a step and after it, the two settings of
`R0_WRITABLE` agree on the step. -/
def Obligations.RegisterZeroParameterIrrelevant : Prop :=
  ∀ s t, s.gpr[(0 : Reg)] = 0#32 → step (withR0Writable s true) = .next t → t.gpr[(0 : Reg)] = 0#32 →
    step (withR0Writable s false) = .next (withR0Writable t false)

/-- R163, R228 (BR; log 13): where the delay slot leaves alone the registers its branch compares, the two settings of
`BRANCH_OPERANDS_AFTER_SLOT` agree on the branch and its slot. -/
def Obligations.CompareTimingParameterIrrelevant : Prop :=
  ∀ s s1 t i c, s.slot = none → instrAt s = some i → asControl i = some c →
    step (withCompareAfterSlot s true) = .next s1 → step s1 = .next t → t.run = .running →
    (∀ r ∈ comparedRegs c, t.readReg r = s.readReg r) →
    ∃ s1', step (withCompareAfterSlot s false) = .next s1' ∧ step s1' = .next (withCompareAfterSlot t false)

/-- R87: the two steps of a control-flow instruction and its slot agree with the source's one nested cycle on all of
the state but `slot`, stops included; any other instruction's step is the source's cycle. -/
def Obligations.TwoStepsAgreeWithNestedCycle : Prop :=
  ∀ s, s.run = .running → s.slot = none →
    (∀ i c, FW s → instrAt s = some i → asControl i = some c →
      ∃ s1 s2, step s = .next s1 ∧ step s1 = .next s2 ∧ nestedCycle s = .next (s2.setSlot none)) ∧
    ((∀ i c, FW s → instrAt s = some i → asControl i ≠ some c) → step s = nestedCycle s)

/-- R54, R227: a word that sw stores at an address is what the next fetch there reads. -/
def Obligations.StoreIsSeenByTheFetch : Prop :=
  ∀ s t u rt rs imm, exec (.sw rt rs imm) s = .next t → t.run = .running → s.run = .running →
    u.mem = t.mem → u.pc = s.effectiveAddress rs imm → FW u → u.fetch = .ok (s.readReg rt)

/-- R72: the all-zero word changes nothing but the pc, under both settings of `R0_WRITABLE`. -/
def Obligations.ZeroWordIsTheNop : Prop :=
  ∀ s, s.run = .running → s.slot = none → FW s → s.mem.read32 s.pc = 0#32 → step s = .next { s with pc := s.pc + 4 }
end

