-- ==== Sys2Proof/Laws/Encoding.lean ====
section
/-! SUPPORT. Words as numbers: what each format and each mask of the opcode table is, so that facts about encodings
become linear arithmetic. -/

namespace Sys2Proof

/-- Concatenation as a number. -/
theorem toNat_append_add {n m : Nat} (x : BitVec n) (y : BitVec m) : (x ++ y).toNat = x.toNat * 2 ^ m + y.toNat := by
  rw [BitVec.toNat_append, Nat.shiftLeft_eq, Nat.mul_comm, ← Nat.two_pow_add_eq_or_of_lt y.isLt]

/-- The register format as a number (R61). -/
theorem encodeR_toNat (op : BitVec 6) (rs rt rd sh : BitVec 5) (fn : BitVec 6) :
    (encodeR op rs rt rd sh fn).toNat = op.toNat * 2 ^ 26 + rs.toNat * 2 ^ 21 + rt.toNat * 2 ^ 16
      + rd.toNat * 2 ^ 11 + sh.toNat * 2 ^ 6 + fn.toNat := by
  show (op ++ rs ++ rt ++ rd ++ sh ++ fn).toNat = _
  simp only [toNat_append_add]
  omega

/-- What the R mask keeps of a word: opcode and funct. -/
theorem and_maskR (w : Word) : (w &&& maskR).toNat = w.toNat / 2 ^ 26 * 2 ^ 26 + w.toNat % 2 ^ 6 := by
  have hm : ∀ i < 32, maskR.getLsbD i = (decide (i < 6) || decide (26 ≤ i)) := by decide
  have : w &&& maskR = w.extractLsb' 26 6 ++ 0#20 ++ w.extractLsb' 0 6 := by
    apply BitVec.eq_of_getLsbD_eq
    intro i hi
    rw [BitVec.getLsbD_and, hm i hi]
    show _ = (w.extractLsb' 26 6 ++ 0#20 ++ w.extractLsb' 0 6).getLsbD i
    simp only [BitVec.getLsbD_append, BitVec.getLsbD_extractLsb', BitVec.getLsbD_zero]
    by_cases h6 : i < 6 <;> by_cases h26 : 26 ≤ i
    · omega
    · simp [h6]
    · have h : ¬ i - 6 < 20 := by omega
      have e : 26 + (i - 6 - 20) = i := by omega
      have e6 : i - 6 - 20 < 6 := by omega
      simp [h6, h26, h, e, e6]
    · have h : i - 6 < 20 := by omega
      simp [h6, h26, h]
  rw [this]
  show (w.extractLsb' 26 6 ++ 0#20 ++ w.extractLsb' 0 6).toNat = _
  simp only [toNat_append_add, BitVec.extractLsb'_toNat, BitVec.toNat_ofNat, Nat.shiftRight_eq_div_pow]
  have := w.isLt
  omega

/-- What the I and J mask keeps of a word: the opcode. -/
theorem and_maskI (w : Word) : (w &&& maskI).toNat = w.toNat / 2 ^ 26 * 2 ^ 26 := by
  have hm : ∀ i < 32, maskI.getLsbD i = decide (26 ≤ i) := by decide
  have : w &&& maskI = w.extractLsb' 26 6 ++ 0#26 := by
    apply BitVec.eq_of_getLsbD_eq
    intro i hi
    rw [BitVec.getLsbD_and, hm i hi]
    show _ = (w.extractLsb' 26 6 ++ 0#26).getLsbD i
    simp only [BitVec.getLsbD_append, BitVec.getLsbD_extractLsb', BitVec.getLsbD_zero]
    by_cases h26 : 26 ≤ i
    · have e : 26 + (i - 26) = i := by omega
      have e6 : i - 26 < 6 := by omega
      simp [h26, e, e6]
    · simp [h26]
  rw [this]
  show (w.extractLsb' 26 6 ++ 0#26).toNat = _
  simp only [toNat_append_add, BitVec.extractLsb'_toNat, BitVec.toNat_ofNat, Nat.shiftRight_eq_div_pow]
  have := w.isLt
  omega

/-- The immediate format as a number (R62). -/
theorem encodeI_toNat (op : BitVec 6) (rs rt : BitVec 5) (imm : BitVec 16) :
    (encodeI op rs rt imm).toNat = op.toNat * 2 ^ 26 + rs.toNat * 2 ^ 21 + rt.toNat * 2 ^ 16 + imm.toNat := by
  show (op ++ rs ++ rt ++ imm).toNat = _
  simp only [toNat_append_add]
  omega

/-- The jump format as a number (R63). -/
theorem encodeJ_toNat (op : BitVec 6) (a : BitVec 26) :
    (encodeJ op a).toNat = op.toNat * 2 ^ 26 + a.toNat := by
  show (op ++ a).toNat = _
  simp only [toNat_append_add]

/-- Belonging to a row, as an equation of numbers. -/
theorem matches_iff (r : TableRow) (w : Word) : r.matches w = true ↔ (w &&& r.mask).toNat = r.bits.toNat := by
  unfold TableRow.matches
  rw [beq_iff_eq, BitVec.toNat_inj]

end Sys2Proof
end

