-- ==== Sys2Proof/Laws/Memory.lean ====
section
/-! SUPPORT. The laws of memory: a read after a write, and that every operation keeps the canonical form. -/

namespace Sys2Proof.Machine

variable (m : Memory)

/-! ## Bytes -/

@[simp] theorem Memory.read_nil (a : Nat) : Memory.read [] a = unlistedByte := rfl

theorem Memory.read_erase (a b : Nat) : (m.erase a).read b = if b = a then unlistedByte else m.read b := by
  induction m with
  | nil => simp [Memory.erase]
  | cons c m ih =>
    obtain ⟨k, v⟩ := c
    simp only [Memory.erase, Memory.read]
    split_ifs <;> simp_all [Memory.read]

theorem Memory.erase_ne {a : Nat} {c : Host.Cell} (h : c ∈ m.erase a) : c.1 ≠ a := by
  induction m with
  | nil => simp [Memory.erase] at h
  | cons d m ih =>
    obtain ⟨k, v⟩ := d
    simp only [Memory.erase] at h
    split_ifs at h with hk
    · exact ih h
    · rcases List.mem_cons.mp h with rfl | h
      · exact hk
      · exact ih h

theorem Memory.read_insert (a : Nat) (v : Byte) (hm : ∀ c ∈ m, c.1 ≠ a) (b : Nat) :
    (m.insert a v).read b = if b = a then v else m.read b := by
  induction m with
  | nil => simp [Memory.insert, Memory.read, eq_comm]
  | cons c m ih =>
    obtain ⟨k, w⟩ := c
    have hk : k ≠ a := hm (k, w) (by simp)
    have ih := ih fun c hc => hm c (by simp [hc])
    simp only [Memory.insert]
    by_cases hb : b = a
    · subst hb
      rw [if_pos rfl] at ih ⊢
      split <;> simp [Memory.read, hk, ih]
    · rw [if_neg hb] at ih ⊢
      split <;> simp [Memory.read, ih, Ne.symm hb]

/-- A write replaces the byte at its address and leaves every other byte alone, whatever the memory. -/
theorem Memory.read_write (a : Nat) (v : Byte) (b : Nat) :
    (m.write a v).read b = if b = a then v else m.read b := by
  unfold Memory.write
  split
  · rename_i h
    rw [Memory.read_erase, h]
  · rw [Memory.read_insert _ _ _ (fun c hc => Memory.erase_ne m hc), Memory.read_erase]
    split_ifs <;> rfl

/-! ## The canonical form -/

theorem Memory.mem_erase {a : Nat} {c : Host.Cell} (h : c ∈ m.erase a) : c ∈ m := by
  induction m with
  | nil => simp [Memory.erase] at h
  | cons d m ih =>
    obtain ⟨k, v⟩ := d
    simp only [Memory.erase] at h
    split_ifs at h
    · exact List.mem_cons_of_mem _ (ih h)
    · rcases List.mem_cons.mp h with rfl | h
      · simp
      · exact List.mem_cons_of_mem _ (ih h)

theorem Memory.mem_insert {a : Nat} {v : Byte} {c : Host.Cell} (h : c ∈ m.insert a v) : c = (a, v) ∨ c ∈ m := by
  induction m with
  | nil => simpa [Memory.insert] using h
  | cons d m ih =>
    obtain ⟨k, w⟩ := d
    simp only [Memory.insert] at h
    split_ifs at h
    · simpa using h
    · rcases List.mem_cons.mp h with rfl | h
      · simp
      · rcases ih h with h | h <;> simp [h]

theorem Memory.pairwise_erase (a : Nat) (h : m.Pairwise fun c d => c.1 < d.1) :
    (m.erase a).Pairwise fun c d => c.1 < d.1 := by
  induction m with
  | nil => simp [Memory.erase]
  | cons c m ih =>
    obtain ⟨k, v⟩ := c
    rw [List.pairwise_cons] at h
    simp only [Memory.erase]
    split_ifs
    · exact ih h.2
    · exact List.pairwise_cons.mpr ⟨fun d hd => h.1 d (Memory.mem_erase m hd), ih h.2⟩

theorem Memory.pairwise_insert (a : Nat) (v : Byte) (h : m.Pairwise fun c d => c.1 < d.1)
    (hm : ∀ c ∈ m, c.1 ≠ a) : (m.insert a v).Pairwise fun c d => c.1 < d.1 := by
  induction m with
  | nil => simp [Memory.insert]
  | cons c m ih =>
    obtain ⟨k, w⟩ := c
    have hk : k ≠ a := hm (k, w) (by simp)
    rw [List.pairwise_cons] at h
    simp only [Memory.insert]
    split_ifs with hlt
    · refine List.pairwise_cons.mpr ⟨fun d hd => ?_, List.pairwise_cons.mpr h⟩
      rcases List.mem_cons.mp hd with rfl | hd
      · exact hlt
      · exact hlt.trans (h.1 d hd)
    · refine List.pairwise_cons.mpr ⟨fun d hd => ?_, ih h.2 fun c hc => hm c (by simp [hc])⟩
      rcases Memory.mem_insert m hd with rfl | hd
      · show k < a
        omega
      · exact h.1 d hd

theorem Memory.wf_nil : Memory.wf [] := by decide

/-- A write inside the address space keeps the canonical form. -/
theorem Memory.wf_write {m : Memory} (h : m.wf) {a : Nat} (ha : a < 2 ^ 32) (v : Byte) : (m.write a v).wf := by
  unfold Memory.write
  split
  · exact ⟨Memory.pairwise_erase m a h.1, fun c hc => h.2 c (Memory.mem_erase m hc)⟩
  · rename_i hv
    refine ⟨Memory.pairwise_insert _ a v (Memory.pairwise_erase m a h.1) fun c hc => Memory.erase_ne m hc,
      fun c hc => ?_⟩
    rcases Memory.mem_insert _ hc with rfl | hc
    · exact ⟨ha, hv⟩
    · exact h.2 c (Memory.mem_erase m hc)

theorem Memory.wf_write8 {m : Memory} (h : m.wf) (a : Word) (v : BitVec 8) : (m.write8 a v).wf :=
  Memory.wf_write h a.isLt v

theorem Memory.wf_write16 {m : Memory} (h : m.wf) (a : Word) (v : BitVec 16) : (m.write16 a v).wf :=
  Memory.wf_write8 (Memory.wf_write8 h _ _) _ _

theorem Memory.wf_write32 {m : Memory} (h : m.wf) (a : Word) (v : BitVec 32) : (m.write32 a v).wf :=
  Memory.wf_write8 (Memory.wf_write8 (Memory.wf_write8 (Memory.wf_write8 h _ _) _ _) _ _) _ _

/-- Loading an image keeps the canonical form. -/
theorem Memory.wf_placeWords {m : Memory} (h : m.wf) (k : Nat) (ws : List Word) : (m.placeWords k ws).wf := by
  induction ws generalizing m k with
  | nil => exact h
  | cons w ws ih => exact ih (Memory.wf_write32 h _ w) (k + 1)

/-! ## Wider accesses -/

theorem Memory.read8_write8 (a b : Word) (v : BitVec 8) :
    (m.write8 a v).read8 b = if b = a then v else m.read8 b := by
  simp [Memory.read8, Memory.write8, Memory.read_write, BitVec.toNat_inj]

/-- The byte of a 16-bit value that a halfword access puts at each address (20_memory.md R43). -/
theorem Memory.read8_write16 (a b : Word) (v : BitVec 16) :
    (m.write16 a v).read8 b
      = if b = a + 1 then v.extractLsb' 0 8 else if b = a then v.extractLsb' 8 8 else m.read8 b := by
  simp only [Memory.write16, Memory.read8_write8]

/-- The byte of a word that a word access puts at each address (R43). -/
theorem Memory.read8_write32 (a b : Word) (v : BitVec 32) :
    (m.write32 a v).read8 b
      = if b = a + 3 then v.extractLsb' 0 8 else if b = a + 2 then v.extractLsb' 8 8
        else if b = a + 1 then v.extractLsb' 16 8 else if b = a then v.extractLsb' 24 8 else m.read8 b := by
  simp only [Memory.write32, Memory.read8_write8]

/-- A word is its four bytes, most significant first. -/
theorem wordOfBytes_extract (w : Word) :
    wordOfBytes (w.extractLsb' 24 8) (w.extractLsb' 16 8) (w.extractLsb' 8 8) (w.extractLsb' 0 8) = w := by
  unfold wordOfBytes
  rw [BitVec.extractLsb'_append_extractLsb'_eq_extractLsb' (by omega),
    BitVec.extractLsb'_append_extractLsb'_eq_extractLsb' (by omega),
    BitVec.extractLsb'_append_extractLsb'_eq_extractLsb' (by omega)]
  simp

/-- A word read back where it was written, wrapping or not (R43). -/
theorem Memory.read32_write32 (a : Word) (v : BitVec 32) : (m.write32 a v).read32 a = v := by
  simp [Memory.read32, Memory.read8_write32, wordOfBytes_extract]

end Sys2Proof.Machine
end

