-- ==== Sys2Proof/Laws/State.lean ====
section
/-! SUPPORT. One lemma per field per update, so that no later proof unfolds a record update. -/

namespace Sys2Proof.Machine

section SetPc
variable (s : State) (v : Word)
@[simp] theorem State.setPc_gpr : (s.setPc v).gpr = s.gpr := rfl
@[simp] theorem State.setPc_pc : (s.setPc v).pc = v := rfl
@[simp] theorem State.setPc_slot : (s.setPc v).slot = s.slot := rfl
@[simp] theorem State.setPc_run : (s.setPc v).run = s.run := rfl
@[simp] theorem State.setPc_mem : (s.setPc v).mem = s.mem := rfl
@[simp] theorem State.setPc_config : (s.setPc v).config = s.config := rfl
@[simp] theorem State.setPc_readReg (i : Reg) : (s.setPc v).readReg i = s.readReg i := rfl
end SetPc

section SetSlot
variable (s : State) (p : Option Pending)
@[simp] theorem State.setSlot_gpr : (s.setSlot p).gpr = s.gpr := rfl
@[simp] theorem State.setSlot_pc : (s.setSlot p).pc = s.pc := rfl
@[simp] theorem State.setSlot_slot : (s.setSlot p).slot = p := rfl
@[simp] theorem State.setSlot_run : (s.setSlot p).run = s.run := rfl
@[simp] theorem State.setSlot_mem : (s.setSlot p).mem = s.mem := rfl
@[simp] theorem State.setSlot_config : (s.setSlot p).config = s.config := rfl
@[simp] theorem State.setSlot_readReg (i : Reg) : (s.setSlot p).readReg i = s.readReg i := rfl
end SetSlot

section SetMem
variable (s : State) (m : Memory)
@[simp] theorem State.setMem_gpr : (s.setMem m).gpr = s.gpr := rfl
@[simp] theorem State.setMem_pc : (s.setMem m).pc = s.pc := rfl
@[simp] theorem State.setMem_slot : (s.setMem m).slot = s.slot := rfl
@[simp] theorem State.setMem_run : (s.setMem m).run = s.run := rfl
@[simp] theorem State.setMem_mem : (s.setMem m).mem = m := rfl
@[simp] theorem State.setMem_config : (s.setMem m).config = s.config := rfl
@[simp] theorem State.setMem_readReg (i : Reg) : (s.setMem m).readReg i = s.readReg i := rfl
end SetMem

section SetConfig
variable (s : State) (c : Config)
@[simp] theorem State.setConfig_gpr : (s.setConfig c).gpr = s.gpr := rfl
@[simp] theorem State.setConfig_pc : (s.setConfig c).pc = s.pc := rfl
@[simp] theorem State.setConfig_slot : (s.setConfig c).slot = s.slot := rfl
@[simp] theorem State.setConfig_run : (s.setConfig c).run = s.run := rfl
@[simp] theorem State.setConfig_mem : (s.setConfig c).mem = s.mem := rfl
@[simp] theorem State.setConfig_config : (s.setConfig c).config = c := rfl
end SetConfig

section Stop
variable (s : State) (k : Run)
@[simp] theorem State.stop_gpr : (s.stop k).gpr = s.gpr := rfl
@[simp] theorem State.stop_pc : (s.stop k).pc = s.pc := rfl
@[simp] theorem State.stop_slot : (s.stop k).slot = s.slot := rfl
@[simp] theorem State.stop_run : (s.stop k).run = k := rfl
@[simp] theorem State.stop_mem : (s.stop k).mem = s.mem := rfl
@[simp] theorem State.stop_config : (s.stop k).config = s.config := rfl
@[simp] theorem State.stop_readReg (i : Reg) : (s.stop k).readReg i = s.readReg i := rfl
end Stop

section Advance
variable (s : State)
@[simp] theorem State.advance_gpr : s.advance.gpr = s.gpr := rfl
@[simp] theorem State.advance_pc : s.advance.pc = s.pc + 4 := rfl
@[simp] theorem State.advance_slot : s.advance.slot = s.slot := rfl
@[simp] theorem State.advance_run : s.advance.run = s.run := rfl
@[simp] theorem State.advance_mem : s.advance.mem = s.mem := rfl
@[simp] theorem State.advance_config : s.advance.config = s.config := rfl
@[simp] theorem State.advance_readReg (i : Reg) : s.advance.readReg i = s.readReg i := rfl
end Advance

section WriteReg
variable (s : State) (i : Reg) (v : Word)
@[simp] theorem State.writeReg_pc : (s.writeReg i v).pc = s.pc := by unfold State.writeReg; split <;> rfl
@[simp] theorem State.writeReg_slot : (s.writeReg i v).slot = s.slot := by unfold State.writeReg; split <;> rfl
@[simp] theorem State.writeReg_run : (s.writeReg i v).run = s.run := by unfold State.writeReg; split <;> rfl
@[simp] theorem State.writeReg_mem : (s.writeReg i v).mem = s.mem := by unfold State.writeReg; split <;> rfl
@[simp] theorem State.writeReg_config : (s.writeReg i v).config = s.config := by
  unfold State.writeReg; split <;> rfl

/-- What a write to a register does to every read, under both settings of `R0_WRITABLE` (10_state.md R21, R23). -/
theorem State.readReg_writeReg (j : Reg) :
    (s.writeReg i v).readReg j
      = if j = i then (if i = 0 ∧ s.config.r0Writable = false then 0#32 else v) else s.readReg j := by
  unfold State.writeReg State.readReg
  by_cases h : i = 0 ∧ s.config.r0Writable = false
  · rw [if_pos h, if_pos h]
    split_ifs <;> simp_all
  · rw [if_neg h, if_neg h]
    by_cases hj : j = i
    · subst hj
      simp only [if_neg h, if_true]
      simp
    · rw [if_neg hj]
      have : (i : Nat) ≠ j := fun e => hj (Fin.ext e.symm)
      simp [this]

@[simp] theorem State.readReg_writeReg_of_ne {j : Reg} (h : j ≠ i) :
    (s.writeReg i v).readReg j = s.readReg j := by
  rw [State.readReg_writeReg, if_neg h]

/-- Index 0 as stored, after a write, when `R0_WRITABLE = false`. -/
theorem State.writeReg_gpr_zero (h : s.config.r0Writable = false) :
    (s.writeReg i v).gpr[(0 : Reg)] = s.gpr[(0 : Reg)] := by
  unfold State.writeReg
  split
  · rfl
  · rename_i hi
    have h0 : (i : Nat) ≠ 0 := fun e => hi ⟨Fin.ext e, h⟩
    simp [h0]

/-- Writing a register and setting the slot commute. -/
theorem State.writeReg_setSlot (p : Option Pending) : (s.setSlot p).writeReg i v = (s.writeReg i v).setSlot p := by
  by_cases h : i = 0 ∧ s.config.r0Writable = false
  · exact (if_pos h).trans (by rw [State.writeReg, if_pos h])
  · exact (if_neg h).trans (by rw [State.writeReg, if_neg h]; rfl)

end WriteReg

section Branch
variable (s : State) (c : Control) (early : Option Bool) (imm : BitVec 16)
@[simp] theorem State.branch_gpr : (s.branch c early imm).gpr = s.gpr := by unfold State.branch; split <;> rfl
@[simp] theorem State.branch_slot : (s.branch c early imm).slot = s.slot := by unfold State.branch; split <;> rfl
@[simp] theorem State.branch_run : (s.branch c early imm).run = s.run := by unfold State.branch; split <;> rfl
@[simp] theorem State.branch_mem : (s.branch c early imm).mem = s.mem := by unfold State.branch; split <;> rfl
@[simp] theorem State.branch_config : (s.branch c early imm).config = s.config := by
  unfold State.branch; split <;> rfl
@[simp] theorem State.branch_readReg (i : Reg) : (s.branch c early imm).readReg i = s.readReg i := by
  unfold State.branch; split <;> rfl
end Branch

section Resolve
variable (s : State) (p : Pending)
@[simp] theorem State.resolve_slot : (s.resolve p).slot = s.slot := by
  unfold State.resolve; split <;> simp [resolveBeq, resolveBne, resolveBgtz, resolveBlez, resolveJ, resolveJal, resolveJr]
@[simp] theorem State.resolve_run : (s.resolve p).run = s.run := by
  unfold State.resolve; split <;> simp [resolveBeq, resolveBne, resolveBgtz, resolveBlez, resolveJ, resolveJal, resolveJr]
@[simp] theorem State.resolve_mem : (s.resolve p).mem = s.mem := by
  unfold State.resolve; split <;> simp [resolveBeq, resolveBne, resolveBgtz, resolveBlez, resolveJ, resolveJal, resolveJr]
@[simp] theorem State.resolve_config : (s.resolve p).config = s.config := by
  unfold State.resolve; split <;> simp [resolveBeq, resolveBne, resolveBgtz, resolveBlez, resolveJ, resolveJal, resolveJr]
end Resolve

end Sys2Proof.Machine
end

