-- ==== Sys2Proof/Laws/Exec.lean ====
section
/-! SUPPORT. What each shared operation can do, said once, and from it everything one instruction can do. -/

namespace Sys2Proof.Machine

open Sys2Proof.Safety

variable {s t : State}

/-! ## Alignment as a number -/

theorem aligned2_iff (a : Word) : aligned2 a = true ↔ a.toNat % 2 = 0 := by
  simp [aligned2, ← BitVec.toNat_inj]

theorem aligned4_iff (a : Word) : aligned4 a = true ↔ a.toNat % 4 = 0 := by
  simp [aligned4, ← BitVec.toNat_inj]

/-! ## The shapes of an effect -/

theorem writeBack_next {rd : Reg} {v : Word} (h : s.writeBack rd v = .next t) : t = s.advance.writeReg rd v := by
  injection h with h; exact h.symm

/-- Everything `writeBack` does: it always goes on, and only the register and the pc change. -/
theorem writeBack_writesReg (s : State) (rd : Reg) (v : Word) :
    ∃ t, s.writeBack rd v = .next t ∧ WritesReg s t rd v :=
  ⟨_, rfl,
    { dest := (State.readReg_writeReg _ _ _ _).trans (if_pos rfl)
      others := fun _ hr => State.readReg_writeReg_of_ne _ _ _ hr
      pc := by simp
      memory := by simp
      slot := by simp
      run := by simp
      config := by simp }⟩

/-- Everything `storeBack` does: it always goes on, and only the stored bytes and the pc change. -/
theorem storeBack_storesBytes (s : State) (m : Memory) (a : Word) (bytes : List Byte)
    (stored : ∀ k (h : k < bytes.length), m.read8 (a + BitVec.ofNat 32 k) = bytes[k])
    (others : ∀ b : Nat, Outside a bytes.length b → m.read b = s.mem.read b) :
    ∃ t, s.storeBack m = .next t ∧ StoresBytes s t a bytes :=
  ⟨_, rfl,
    { stored := stored
      others := others
      registers := fun _ => rfl
      pc := rfl
      slot := rfl
      run := rfl
      config := rfl }⟩

theorem storeBack_next {m : Memory} (h : s.storeBack m = .next t) : t = s.advance.setMem m := by
  injection h with h; exact h.symm

theorem stopAfter_next {k : Run} (h : s.stopAfter k = .next t) : t = s.advance.stop k := by
  injection h with h; exact h.symm

theorem dataMisaligned_next {a : Word} (h : s.dataMisaligned a = .next t) :
    t = s.advance.stop (.fault .dataMisaligned a) := stopAfter_next h

theorem execHalt_next (h : execHalt s = .next t) : t = s.stop .halted := by
  injection h with h; exact h.symm

/-- What step 1 of a control-flow instruction does: set the slot, or stop in a delay slot
(44_control_flow.md R161, R162). -/
theorem issue_next {c : Control} (h : s.issue c = .next t) :
    (s.slot = none ∧ t = s.advance.setSlot (some ⟨c, s.pc, s.earlyOutcome c⟩)) ∨
    (∃ p, s.slot = some p ∧ t = s.advance.stop (.fault .controlInDelaySlot s.pc)) := by
  unfold State.issue at h
  split at h
  · rename_i p hp
    exact .inr ⟨p, hp, stopAfter_next h⟩
  · rename_i hp
    injection h with h
    exact .inl ⟨hp, h.symm⟩

/-- Step 1 in an empty slot (R161). -/
theorem issue_of_empty {c : Control} (h : s.slot = none) :
    s.issue c = .next (s.advance.setSlot (some ⟨c, s.pc, s.earlyOutcome c⟩)) := by
  unfold State.issue; rw [h]

/-- Step 1 in a delay slot (R162). -/
theorem issue_of_pending {c : Control} {p : Pending} (h : s.slot = some p) :
    s.issue c = .next (s.advance.stop (.fault .controlInDelaySlot s.pc)) := by
  unfold State.issue; rw [h]; rfl

/-- The execution of a control-flow instruction is its step 1 (R160). -/
theorem exec_control {i : Instr} {c : Control} (h : asControl i = some c) (s : State) : exec i s = s.issue c := by
  cases i <;> cases h <;> rfl

/-! ## Stored bytes -/

theorem Memory.read_eq_read8 (m : Memory) (b : Nat) (hb : b < 2 ^ 32) :
    m.read b = m.read8 (BitVec.ofNat 32 b) := by
  rw [Memory.read8, BitVec.toNat_ofNat, Nat.mod_eq_of_lt hb]

theorem read_write8_outside (m : Memory) (a : Word) (v : BitVec 8) {b : Nat} (h : Outside a 1 b) :
    (m.write8 a v).read b = m.read b := by
  have h0 := h 0 (by decide)
  simp only [Memory.write8, Memory.read_write]
  rw [if_neg (by simpa using h0)]

theorem read_write16_outside (m : Memory) (a : Word) (v : BitVec 16) {b : Nat} (h : Outside a 2 b) :
    (m.write16 a v).read b = m.read b := by
  have h0 := h 0 (by decide)
  have h1 := h 1 (by decide)
  simp only [Memory.write16, Memory.write8, Memory.read_write]
  rw [if_neg (by simpa using h1), if_neg (by simpa using h0)]

theorem read_write32_outside (m : Memory) (a : Word) (v : BitVec 32) {b : Nat} (h : Outside a 4 b) :
    (m.write32 a v).read b = m.read b := by
  have h0 := h 0 (by decide)
  have h1 := h 1 (by decide)
  have h2 := h 2 (by decide)
  have h3 := h 3 (by decide)
  simp only [Memory.write32, Memory.write8, Memory.read_write]
  rw [if_neg (by simpa using h3), if_neg (by simpa using h2), if_neg (by simpa using h1),
    if_neg (by simpa using h0)]

/-! ## Everything one instruction can do -/

/-- A register result. -/
abbrev WroteReg (i : Instr) (s t : State) : Prop :=
  ∃ rd v, destReg i = some rd ∧ t = s.advance.writeReg rd v

/-- A store: only the stored bytes change, and the canonical form is kept. -/
abbrev Stored (i : Instr) (s t : State) : Prop :=
  ∃ a n m, storeAccess s i = some (a, n) ∧ t = s.advance.setMem m ∧ (s.mem.wf → m.wf) ∧
    ∀ b, Outside a n b → m.read b = s.mem.read b

/-- A misaligned access: the run stops, nothing is read or written. -/
abbrev Misaligned (i : Instr) (s t : State) : Prop :=
  ∃ a n, dataAccess s i = some (a, n) ∧ a.toNat % n ≠ 0 ∧ t = s.advance.stop (.fault .dataMisaligned a)

/-- Step 1 of a control-flow instruction. -/
abbrev Issued (i : Instr) (s t : State) : Prop := ∃ c, asControl i = some c ∧ s.issue c = .next t

/-- The inversion lemma of `exec`: whatever the instruction, its next state is one of these. -/
theorem exec_cases {i : Instr} (h : exec i s = .next t) :
    WroteReg i s t ∨ Stored i s t ∨ Misaligned i s t ∨ Issued i s t ∨ (i = .halt ∧ t = s.stop .halted) := by
  cases i with
  | sll rd rt n => exact .inl ⟨rd, _, rfl, writeBack_next h⟩
  | srl rd rt n => exact .inl ⟨rd, _, rfl, writeBack_next h⟩
  | add rd rs rt => exact .inl ⟨rd, _, rfl, writeBack_next h⟩
  | addu rd rs rt => exact .inl ⟨rd, _, rfl, writeBack_next h⟩
  | sub rd rs rt => exact .inl ⟨rd, _, rfl, writeBack_next h⟩
  | subu rd rs rt => exact .inl ⟨rd, _, rfl, writeBack_next h⟩
  | and rd rs rt => exact .inl ⟨rd, _, rfl, writeBack_next h⟩
  | or rd rs rt => exact .inl ⟨rd, _, rfl, writeBack_next h⟩
  | nor rd rs rt => exact .inl ⟨rd, _, rfl, writeBack_next h⟩
  | slt rd rs rt => exact .inl ⟨rd, _, rfl, writeBack_next h⟩
  | sltu rd rs rt => exact .inl ⟨rd, _, rfl, writeBack_next h⟩
  | addi rt rs imm => exact .inl ⟨rt, _, rfl, writeBack_next h⟩
  | addiu rt rs imm => exact .inl ⟨rt, _, rfl, writeBack_next h⟩
  | slti rt rs imm => exact .inl ⟨rt, _, rfl, writeBack_next h⟩
  | sltiu rt rs imm => exact .inl ⟨rt, _, rfl, writeBack_next h⟩
  | andi rt rs imm => exact .inl ⟨rt, _, rfl, writeBack_next h⟩
  | ori rt rs imm => exact .inl ⟨rt, _, rfl, writeBack_next h⟩
  | lui rt imm => exact .inl ⟨rt, _, rfl, writeBack_next h⟩
  | lbu rt rs imm => exact .inl ⟨rt, _, rfl, writeBack_next h⟩
  | lhu rt rs imm =>
    simp only [exec, execLhu] at h
    split at h
    · exact .inl ⟨rt, _, rfl, writeBack_next h⟩
    · rename_i ha
      exact .inr (.inr (.inl ⟨_, _, rfl, by rwa [aligned2_iff] at ha, dataMisaligned_next h⟩))
  | lw rt rs imm =>
    simp only [exec, execLw] at h
    split at h
    · exact .inl ⟨rt, _, rfl, writeBack_next h⟩
    · rename_i ha
      exact .inr (.inr (.inl ⟨_, _, rfl, by rwa [aligned4_iff] at ha, dataMisaligned_next h⟩))
  | sb rt rs imm =>
    exact .inr (.inl ⟨_, _, _, rfl, storeBack_next h, fun hw => Memory.wf_write8 hw _ _,
      fun b hb => read_write8_outside _ _ _ hb⟩)
  | sh rt rs imm =>
    simp only [exec, execSh] at h
    split at h
    · exact .inr (.inl ⟨_, _, _, rfl, storeBack_next h, fun hw => Memory.wf_write16 hw _ _,
        fun b hb => read_write16_outside _ _ _ hb⟩)
    · rename_i ha
      exact .inr (.inr (.inl ⟨_, _, rfl, by rwa [aligned2_iff] at ha, dataMisaligned_next h⟩))
  | sw rt rs imm =>
    simp only [exec, execSw] at h
    split at h
    · exact .inr (.inl ⟨_, _, _, rfl, storeBack_next h, fun hw => Memory.wf_write32 hw _ _,
        fun b hb => read_write32_outside _ _ _ hb⟩)
    · rename_i ha
      exact .inr (.inr (.inl ⟨_, _, rfl, by rwa [aligned4_iff] at ha, dataMisaligned_next h⟩))
  | j address => exact .inr (.inr (.inr (.inl ⟨_, rfl, h⟩)))
  | jal address => exact .inr (.inr (.inr (.inl ⟨_, rfl, h⟩)))
  | jr rs => exact .inr (.inr (.inr (.inl ⟨_, rfl, h⟩)))
  | beq rs rt imm => exact .inr (.inr (.inr (.inl ⟨_, rfl, h⟩)))
  | bne rs rt imm => exact .inr (.inr (.inr (.inl ⟨_, rfl, h⟩)))
  | blez rs imm => exact .inr (.inr (.inr (.inl ⟨_, rfl, h⟩)))
  | bgtz rs imm => exact .inr (.inr (.inr (.inl ⟨_, rfl, h⟩)))
  | halt => exact .inr (.inr (.inr (.inr ⟨rfl, execHalt_next h⟩)))

end Sys2Proof.Machine
end

