-- ==== Sys2Proof/Laws/Operands.lean ====
section
/-! SUPPORT. The targets of the control transfers as numbers, so that no proof unfolds their bit strings. -/

namespace Sys2Proof.Machine

/-- The branch target is the base plus four times the signed immediate, modulo 2^32 (44_control_flow.md R164). -/
theorem branchTarget_eq (pc : Word) (imm : BitVec 16) :
    branchTarget pc imm = BitVec.ofInt 32 (pc.toNat + 4 * imm.toInt) := by
  have h4 : (imm ++ 0#2).toInt = 4 * imm.toInt := by
    have := imm.isLt
    rw [BitVec.toInt_eq_toNat_cond, BitVec.toInt_eq_toNat_cond, toNat_append_add]
    simp
    split_ifs <;> omega
  unfold branchTarget branchOffset
  rw [BitVec.signExtend, h4, BitVec.ofInt_add]
  congr 1
  simp

/-- The jump target keeps the base's 256 MiB region (44_control_flow.md R169). -/
theorem jumpTarget_eq (pc : Word) (address : BitVec 26) :
    jumpTarget pc address = BitVec.ofNat 32 (pc.toNat / 2 ^ 28 * 2 ^ 28 + address.toNat * 4) := by
  apply BitVec.eq_of_toNat_eq
  show (pc.extractLsb' 28 4 ++ address ++ 0b00#2).toNat = _
  simp only [toNat_append_add, BitVec.extractLsb'_toNat, Nat.shiftRight_eq_div_pow, BitVec.toNat_ofNat]
  have := pc.isLt
  have := address.isLt
  omega

end Sys2Proof.Machine
end

