-- ==== Sys2Proof/Laws/PerInstr.lean ====
section
/-! SUPPORT. Facts about every instruction as syntax, one lemma per constructor. -/

namespace Sys2Proof.Laws.FixedBits

/-- The instruction's word belongs to the row of spec/opcode_table.json that bears its mnemonic: the row's fixed
bits stand in it, whatever the operands. -/
def Statement (i : Instr) : Prop :=
  ∃ r ∈ opcodeTable, r.mnemonic = i.mnemonic ∧ r.matches (encode i) = true

/-- An R-format word keeps opcode 0 and its funct under the R mask. -/
theorem matches_encodeR (m : String) (rs rt rd sh : BitVec 5) (fn : BitVec 6) (bits : Word)
    (h : bits.toNat = fn.toNat) : TableRow.matches ⟨m, maskR, bits⟩ (encodeR 0#6 rs rt rd sh fn) = true := by
  rw [matches_iff]
  show (_ &&& maskR).toNat = bits.toNat
  rw [and_maskR, encodeR_toNat, h, BitVec.toNat_ofNat]
  have := rs.isLt; have := rt.isLt; have := rd.isLt; have := sh.isLt; have := fn.isLt
  omega

/-- An I-format word keeps its opcode under the I mask. -/
theorem matches_encodeI (m : String) (rs rt : BitVec 5) (imm : BitVec 16) (op : BitVec 6) (bits : Word)
    (h : bits.toNat = op.toNat * 2 ^ 26) : TableRow.matches ⟨m, maskI, bits⟩ (encodeI op rs rt imm) = true := by
  rw [matches_iff]
  show (_ &&& maskI).toNat = bits.toNat
  rw [and_maskI, encodeI_toNat, h]
  have := rs.isLt; have := rt.isLt; have := imm.isLt
  omega

/-- A J-format word keeps its opcode under the same mask. -/
theorem matches_encodeJ (m : String) (address : BitVec 26) (op : BitVec 6) (bits : Word)
    (h : bits.toNat = op.toNat * 2 ^ 26) : TableRow.matches ⟨m, maskI, bits⟩ (encodeJ op address) = true := by
  rw [matches_iff]
  show (_ &&& maskI).toNat = bits.toNat
  rw [and_maskI, encodeJ_toNat, h]
  have := address.isLt
  omega

theorem sll (rd rt : Reg) (shamt : Nat) : Statement (.sll rd rt shamt) :=
  ⟨⟨"sll", maskR, 0x00000000⟩, by decide, rfl, matches_encodeR _ _ _ _ _ _ _ rfl⟩
theorem srl (rd rt : Reg) (shamt : Nat) : Statement (.srl rd rt shamt) :=
  ⟨⟨"srl", maskR, 0x00000002⟩, by decide, rfl, matches_encodeR _ _ _ _ _ _ _ rfl⟩
theorem add (rd rs rt : Reg) : Statement (.add rd rs rt) :=
  ⟨⟨"add", maskR, 0x00000020⟩, by decide, rfl, matches_encodeR _ _ _ _ _ _ _ rfl⟩
theorem addu (rd rs rt : Reg) : Statement (.addu rd rs rt) :=
  ⟨⟨"addu", maskR, 0x00000021⟩, by decide, rfl, matches_encodeR _ _ _ _ _ _ _ rfl⟩
theorem sub (rd rs rt : Reg) : Statement (.sub rd rs rt) :=
  ⟨⟨"sub", maskR, 0x00000022⟩, by decide, rfl, matches_encodeR _ _ _ _ _ _ _ rfl⟩
theorem subu (rd rs rt : Reg) : Statement (.subu rd rs rt) :=
  ⟨⟨"subu", maskR, 0x00000023⟩, by decide, rfl, matches_encodeR _ _ _ _ _ _ _ rfl⟩
theorem and (rd rs rt : Reg) : Statement (.and rd rs rt) :=
  ⟨⟨"and", maskR, 0x00000024⟩, by decide, rfl, matches_encodeR _ _ _ _ _ _ _ rfl⟩
theorem or (rd rs rt : Reg) : Statement (.or rd rs rt) :=
  ⟨⟨"or", maskR, 0x00000025⟩, by decide, rfl, matches_encodeR _ _ _ _ _ _ _ rfl⟩
theorem nor (rd rs rt : Reg) : Statement (.nor rd rs rt) :=
  ⟨⟨"nor", maskR, 0x00000027⟩, by decide, rfl, matches_encodeR _ _ _ _ _ _ _ rfl⟩
theorem slt (rd rs rt : Reg) : Statement (.slt rd rs rt) :=
  ⟨⟨"slt", maskR, 0x0000002A⟩, by decide, rfl, matches_encodeR _ _ _ _ _ _ _ rfl⟩
theorem sltu (rd rs rt : Reg) : Statement (.sltu rd rs rt) :=
  ⟨⟨"sltu", maskR, 0x0000002B⟩, by decide, rfl, matches_encodeR _ _ _ _ _ _ _ rfl⟩
theorem addi (rt rs : Reg) (imm : BitVec 16) : Statement (.addi rt rs imm) :=
  ⟨⟨"addi", maskI, 0x20000000⟩, by decide, rfl, matches_encodeI _ _ _ _ _ _ rfl⟩
theorem addiu (rt rs : Reg) (imm : BitVec 16) : Statement (.addiu rt rs imm) :=
  ⟨⟨"addiu", maskI, 0x24000000⟩, by decide, rfl, matches_encodeI _ _ _ _ _ _ rfl⟩
theorem slti (rt rs : Reg) (imm : BitVec 16) : Statement (.slti rt rs imm) :=
  ⟨⟨"slti", maskI, 0x28000000⟩, by decide, rfl, matches_encodeI _ _ _ _ _ _ rfl⟩
theorem sltiu (rt rs : Reg) (imm : BitVec 16) : Statement (.sltiu rt rs imm) :=
  ⟨⟨"sltiu", maskI, 0x2C000000⟩, by decide, rfl, matches_encodeI _ _ _ _ _ _ rfl⟩
theorem andi (rt rs : Reg) (imm : BitVec 16) : Statement (.andi rt rs imm) :=
  ⟨⟨"andi", maskI, 0x30000000⟩, by decide, rfl, matches_encodeI _ _ _ _ _ _ rfl⟩
theorem ori (rt rs : Reg) (imm : BitVec 16) : Statement (.ori rt rs imm) :=
  ⟨⟨"ori", maskI, 0x34000000⟩, by decide, rfl, matches_encodeI _ _ _ _ _ _ rfl⟩
theorem lui (rt : Reg) (imm : BitVec 16) : Statement (.lui rt imm) :=
  ⟨⟨"lui", maskI, 0x3C000000⟩, by decide, rfl, matches_encodeI _ _ _ _ _ _ rfl⟩
theorem lw (rt rs : Reg) (imm : BitVec 16) : Statement (.lw rt rs imm) :=
  ⟨⟨"lw", maskI, 0x8C000000⟩, by decide, rfl, matches_encodeI _ _ _ _ _ _ rfl⟩
theorem lbu (rt rs : Reg) (imm : BitVec 16) : Statement (.lbu rt rs imm) :=
  ⟨⟨"lbu", maskI, 0x90000000⟩, by decide, rfl, matches_encodeI _ _ _ _ _ _ rfl⟩
theorem lhu (rt rs : Reg) (imm : BitVec 16) : Statement (.lhu rt rs imm) :=
  ⟨⟨"lhu", maskI, 0x94000000⟩, by decide, rfl, matches_encodeI _ _ _ _ _ _ rfl⟩
theorem sb (rt rs : Reg) (imm : BitVec 16) : Statement (.sb rt rs imm) :=
  ⟨⟨"sb", maskI, 0xA0000000⟩, by decide, rfl, matches_encodeI _ _ _ _ _ _ rfl⟩
theorem sh (rt rs : Reg) (imm : BitVec 16) : Statement (.sh rt rs imm) :=
  ⟨⟨"sh", maskI, 0xA4000000⟩, by decide, rfl, matches_encodeI _ _ _ _ _ _ rfl⟩
theorem sw (rt rs : Reg) (imm : BitVec 16) : Statement (.sw rt rs imm) :=
  ⟨⟨"sw", maskI, 0xAC000000⟩, by decide, rfl, matches_encodeI _ _ _ _ _ _ rfl⟩
theorem j (address : BitVec 26) : Statement (.j address) :=
  ⟨⟨"j", maskI, 0x08000000⟩, by decide, rfl, matches_encodeJ _ _ _ _ rfl⟩
theorem jal (address : BitVec 26) : Statement (.jal address) :=
  ⟨⟨"jal", maskI, 0x0C000000⟩, by decide, rfl, matches_encodeJ _ _ _ _ rfl⟩
theorem jr (rs : Reg) : Statement (.jr rs) :=
  ⟨⟨"jr", maskR, 0x00000008⟩, by decide, rfl, matches_encodeR _ _ _ _ _ _ _ rfl⟩
theorem beq (rs rt : Reg) (imm : BitVec 16) : Statement (.beq rs rt imm) :=
  ⟨⟨"beq", maskI, 0x10000000⟩, by decide, rfl, matches_encodeI _ _ _ _ _ _ rfl⟩
theorem bne (rs rt : Reg) (imm : BitVec 16) : Statement (.bne rs rt imm) :=
  ⟨⟨"bne", maskI, 0x14000000⟩, by decide, rfl, matches_encodeI _ _ _ _ _ _ rfl⟩
theorem blez (rs : Reg) (imm : BitVec 16) : Statement (.blez rs imm) :=
  ⟨⟨"blez", maskI, 0x18000000⟩, by decide, rfl, matches_encodeI _ _ _ _ _ _ rfl⟩
theorem bgtz (rs : Reg) (imm : BitVec 16) : Statement (.bgtz rs imm) :=
  ⟨⟨"bgtz", maskI, 0x1C000000⟩, by decide, rfl, matches_encodeI _ _ _ _ _ _ rfl⟩
theorem halt : Statement (.halt) :=
  ⟨⟨"halt", 0xFFFFFFFF, 0xFEEDFEED⟩, by decide, rfl, by decide⟩

end Sys2Proof.Laws.FixedBits
end

