-- ==== Sys2Proof/Laws/Step.lean ====
section
/-! SUPPORT. What the fetch, the transfer and the step can do, said once. -/

namespace Sys2Proof.Machine

open Sys2Proof.Safety

variable {s t : State}

/-- The three outcomes of a fetch, in the order of 20_memory.md R46. -/
theorem fetch_cases (s : State) :
    (s.pc.toNat % 4 ≠ 0 ∧ s.fetch = .error (.fault .fetchMisaligned s.pc)) ∨
    (s.pc.toNat % 4 = 0 ∧ s.inFetchWindow s.pc = false ∧ s.fetch = .error (.fault .fetchOutOfRange s.pc)) ∨
    (FW s ∧ s.fetch = .ok (s.mem.read32 s.pc)) := by
  unfold State.fetch
  split
  · rename_i h
    exact .inl ⟨fun e => by simp [(aligned4_iff _).mpr e] at h, rfl⟩
  · rename_i h
    have ha : s.pc.toNat % 4 = 0 := (aligned4_iff _).mp (by simpa using h)
    split
    · rename_i hw
      exact .inr (.inl ⟨ha, hw, rfl⟩)
    · rename_i hw
      exact .inr (.inr ⟨⟨ha, by simpa using hw⟩, rfl⟩)

/-- What a fetch that reads a word says of the state. -/
theorem fetch_ok {w : Word} (h : s.fetch = .ok w) : FW s ∧ w = s.mem.read32 s.pc := by
  rcases fetch_cases s with ⟨_, e⟩ | ⟨_, _, e⟩ | ⟨hf, e⟩ <;> rw [e] at h
  · cases h
  · cases h
  · exact ⟨hf, by injection h with h; exact h.symm⟩

/-- A fetch under (FW) reads the word at the pc. -/
theorem fetch_of_FW (h : FW s) : s.fetch = .ok (s.mem.read32 s.pc) := by
  rcases fetch_cases s with ⟨ha, _⟩ | ⟨_, hw, _⟩ | ⟨_, e⟩
  · exact absurd h.1 ha
  · rw [h.2] at hw; cases hw
  · exact e

/-- Everything one step can do. -/
theorem step_cases (h : step s = .next t) :
    s.run = .running ∧
    ((∃ k, s.fetch = .error k ∧ t = s.stop k) ∨
     (∃ w e, s.fetch = .ok w ∧ decodeWord w = .error e ∧ t = s.advance.stop (.illegal w)) ∨
     (∃ w i u, s.fetch = .ok w ∧ decodeWord w = .ok i ∧ exec i s = .next u ∧ t = u.retire s.slot)) := by
  unfold step at h
  split at h
  · rename_i hr
    refine ⟨hr, ?_⟩
    split at h
    · rename_i k hk
      injection h with h
      exact .inl ⟨k, hk, h.symm⟩
    · rename_i w hw
      split at h
      · rename_i e he
        exact .inr (.inl ⟨w, e, hw, he, stopAfter_next h⟩)
      · rename_i i hi
        cases hx : exec i s with
        | next u =>
          rw [hx] at h
          injection h with h
          exact .inr (.inr ⟨w, i, u, hw, hi, hx, h.symm⟩)
        | fault r => rw [hx] at h; cases h
        | refused r => rw [hx] at h; cases h
  · cases h

/-- The instruction at the pc, as the decoder reads it. -/
theorem instrAt_eq_some {i : Instr} : instrAt s = some i ↔ decodeWord (s.mem.read32 s.pc) = .ok i := by
  unfold instrAt; split <;> simp_all

/-- A step that fetches an instruction executes it and retires. -/
theorem step_of_instr {i : Instr} (hr : s.run = .running) (hf : FW s) (hi : instrAt s = some i) :
    step s = retireResult s.slot (exec i s) := by
  unfold step
  rw [if_pos hr, fetch_of_FW hf]
  simp only [instrAt_eq_some.mp hi]

@[simp] theorem retire_none (s : State) : s.retire none = s := rfl

/-- A step that stopped the run ends there (40_cycle.md R86). -/
theorem retire_of_stopped {p : Option Pending} (h : s.run ≠ .running) : s.retire p = s := by
  unfold State.retire
  split
  · rfl
  · rw [if_neg h]

/-- A step that goes on applies the pending transfer (40_cycle.md R85). -/
theorem retire_of_running {p : Pending} (h : s.run = .running) :
    s.retire (some p) = (s.resolve p).setSlot none := if_pos h

/-- What the end of a step leaves alone, whatever was pending. -/
theorem retire_frame (s : State) (before : Option Pending) :
    (s.retire before).mem = s.mem ∧ (s.retire before).config = s.config ∧ (s.retire before).run = s.run := by
  unfold State.retire
  split
  · exact ⟨rfl, rfl, rfl⟩
  · split <;> simp

/-- The registers after a transfer: only jal's link is written (44_control_flow.md R160, R171). -/
theorem resolve_readReg (s : State) (p : Pending) {r : Reg} (h : linkOf p.control ≠ some r) :
    (s.resolve p).readReg r = s.readReg r := by
  obtain ⟨c, a, e⟩ := p
  cases c <;> simp_all [State.resolve, resolveBeq, resolveBne, resolveBgtz, resolveBlez, resolveJ, resolveJal,
    resolveJr, linkOf, linkReg, eq_comm]

end Sys2Proof.Machine
end

