-- ==== Sys2Proof/Tests/Slice0.lean ====
section
/-! SUPPORT. The model's own tests: ill-formed terms refused, one word of every constructor written out bit by bit from
30_encoding.md, single steps with the results of 95_test_vectors.md (named by its ids), and for every obligation with
hypotheses a state that meets them. -/

namespace Sys2Proof.Tests

open Sys2Proof.Machine Sys2Proof.Safety

/-! ## WellFormed refuses what has no encoding (41_register_alu.md R108) -/

theorem test_wf_refuses_sll_32 : (Instr.sll 1 2 32).wf = false := by decide

theorem test_wf_refuses_srl_32 : (Instr.srl 1 2 32).wf = false := by decide

theorem test_wf_admits_shift_31 : ((Instr.sll 1 2 31).wf && (Instr.srl 1 2 31).wf) = true := by decide

/-! ## Every constructor's decoding: fields from 30_encoding.md R61 to R63, values from R68, R69 -/

theorem test_decode_add :
    decodeWord (0b000000#6 ++ 0b00011#5 ++ 0b00100#5 ++ 0b00101#5 ++ 0b00000#5 ++ 0b100000#6) = .ok (.add 5 3 4) := by decide

theorem test_decode_addu :
    decodeWord (0b000000#6 ++ 0b00011#5 ++ 0b00100#5 ++ 0b00101#5 ++ 0b00000#5 ++ 0b100001#6) = .ok (.addu 5 3 4) := by decide

theorem test_decode_sub :
    decodeWord (0b000000#6 ++ 0b00011#5 ++ 0b00100#5 ++ 0b00101#5 ++ 0b00000#5 ++ 0b100010#6) = .ok (.sub 5 3 4) := by decide

theorem test_decode_subu :
    decodeWord (0b000000#6 ++ 0b00011#5 ++ 0b00100#5 ++ 0b00101#5 ++ 0b00000#5 ++ 0b100011#6) = .ok (.subu 5 3 4) := by decide

theorem test_decode_and :
    decodeWord (0b000000#6 ++ 0b00011#5 ++ 0b00100#5 ++ 0b00101#5 ++ 0b00000#5 ++ 0b100100#6) = .ok (.and 5 3 4) := by decide

theorem test_decode_or :
    decodeWord (0b000000#6 ++ 0b00011#5 ++ 0b00100#5 ++ 0b00101#5 ++ 0b00000#5 ++ 0b100101#6) = .ok (.or 5 3 4) := by decide

theorem test_decode_nor :
    decodeWord (0b000000#6 ++ 0b00011#5 ++ 0b00100#5 ++ 0b00101#5 ++ 0b00000#5 ++ 0b100111#6) = .ok (.nor 5 3 4) := by decide

theorem test_decode_slt :
    decodeWord (0b000000#6 ++ 0b00011#5 ++ 0b00100#5 ++ 0b00101#5 ++ 0b00000#5 ++ 0b101010#6) = .ok (.slt 5 3 4) := by decide

theorem test_decode_sltu :
    decodeWord (0b000000#6 ++ 0b00011#5 ++ 0b00100#5 ++ 0b00101#5 ++ 0b00000#5 ++ 0b101011#6) = .ok (.sltu 5 3 4) := by decide

theorem test_decode_sll :
    decodeWord (0b000000#6 ++ 0b00000#5 ++ 0b00100#5 ++ 0b00101#5 ++ 0b00011#5 ++ 0b000000#6) = .ok (.sll 5 4 3) := by decide

theorem test_decode_srl :
    decodeWord (0b000000#6 ++ 0b00000#5 ++ 0b00100#5 ++ 0b00101#5 ++ 0b11111#5 ++ 0b000010#6) = .ok (.srl 5 4 31) := by decide

theorem test_decode_addi :
    decodeWord (0b001000#6 ++ 0b00001#5 ++ 0b00010#5 ++ 0b0000000000000101#16) = .ok (.addi 2 1 0x5) := by decide

theorem test_decode_addiu :
    decodeWord (0b001001#6 ++ 0b00001#5 ++ 0b00010#5 ++ 0b1111111111111111#16) = .ok (.addiu 2 1 0xFFFF) := by decide

theorem test_decode_slti :
    decodeWord (0b001010#6 ++ 0b00001#5 ++ 0b00010#5 ++ 0b1000000000000000#16) = .ok (.slti 2 1 0x8000) := by decide

theorem test_decode_sltiu :
    decodeWord (0b001011#6 ++ 0b00001#5 ++ 0b00010#5 ++ 0b0000000000000001#16) = .ok (.sltiu 2 1 0x1) := by decide

theorem test_decode_andi :
    decodeWord (0b001100#6 ++ 0b00001#5 ++ 0b00010#5 ++ 0b1111111100000000#16) = .ok (.andi 2 1 0xFF00) := by decide

theorem test_decode_ori :
    decodeWord (0b001101#6 ++ 0b00001#5 ++ 0b00010#5 ++ 0b0000000011111111#16) = .ok (.ori 2 1 0xFF) := by decide

theorem test_decode_lw :
    decodeWord (0b100011#6 ++ 0b00001#5 ++ 0b00010#5 ++ 0b1111111111111100#16) = .ok (.lw 2 1 0xFFFC) := by decide

theorem test_decode_lbu :
    decodeWord (0b100100#6 ++ 0b00001#5 ++ 0b00010#5 ++ 0b0000000000000011#16) = .ok (.lbu 2 1 0x3) := by decide

theorem test_decode_lhu :
    decodeWord (0b100101#6 ++ 0b00001#5 ++ 0b00010#5 ++ 0b0000000000000010#16) = .ok (.lhu 2 1 0x2) := by decide

theorem test_decode_sb :
    decodeWord (0b101000#6 ++ 0b00001#5 ++ 0b00010#5 ++ 0b0000000000000011#16) = .ok (.sb 2 1 0x3) := by decide

theorem test_decode_sh :
    decodeWord (0b101001#6 ++ 0b00001#5 ++ 0b00010#5 ++ 0b0000000000000010#16) = .ok (.sh 2 1 0x2) := by decide

theorem test_decode_sw :
    decodeWord (0b101011#6 ++ 0b00001#5 ++ 0b00010#5 ++ 0b0000000000010000#16) = .ok (.sw 2 1 0x10) := by decide

theorem test_decode_lui :
    decodeWord (0b001111#6 ++ 0b00000#5 ++ 0b00010#5 ++ 0b0001001000110100#16) = .ok (.lui 2 0x1234) := by decide

theorem test_decode_beq :
    decodeWord (0b000100#6 ++ 0b00001#5 ++ 0b00010#5 ++ 0b0000000000000010#16) = .ok (.beq 1 2 0x2) := by decide

theorem test_decode_bne :
    decodeWord (0b000101#6 ++ 0b00001#5 ++ 0b00010#5 ++ 0b1111111111111101#16) = .ok (.bne 1 2 0xFFFD) := by decide

theorem test_decode_blez :
    decodeWord (0b000110#6 ++ 0b00001#5 ++ 0b00000#5 ++ 0b0000000000000010#16) = .ok (.blez 1 0x2) := by decide

theorem test_decode_bgtz :
    decodeWord (0b000111#6 ++ 0b00001#5 ++ 0b00000#5 ++ 0b1000000000000000#16) = .ok (.bgtz 1 0x8000) := by decide

theorem test_decode_j :
    decodeWord (0b000010#6 ++ 0b00000000000000000000010000#26) = .ok (.j 0x10) := by decide

theorem test_decode_jal :
    decodeWord (0b000011#6 ++ 0b11111111111111111111111111#26) = .ok (.jal 0x3FFFFFF) := by decide

theorem test_decode_jr :
    decodeWord (0b000000#6 ++ 0b11111#5 ++ 0b00000#5 ++ 0b00000#5 ++ 0b00000#5 ++ 0b001000#6) = .ok (.jr 31) := by decide

theorem test_decode_halt :
    decodeWord (0b1111111011101101#16 ++ 0b1111111011101101#16) = .ok .halt := by decide

/-- The illegal and the don't-care words of 95_test_vectors.md section 2.2. -/
theorem test_decode_illegal_words :
    decodeWord 0x0000000C = .error (.illegalFunct 0x0C) ∧ decodeWord 0x00642826 = .error (.illegalFunct 0x26) ∧
    decodeWord 0x80000000 = .error (.illegalOpcode 0x20) ∧ decodeWord 0xFFFFFFFF = .error (.illegalOpcode 0x3F) := by
  decide

theorem test_decode_dont_care_fields :
    decodeWord 0x006428E0 = .ok (.add 5 3 4) ∧ decodeWord 0x3C221234 = .ok (.lui 2 0x1234) ∧
    decodeWord 0x03E0F808 = .ok (.jr 31) ∧ decodeWord 0x00E42900 = .ok (.sll 5 4 4) := by decide

/-- Bytes are read big-endian, and a short list is no instruction. -/
theorem test_decode_bytes :
    decode [0x00, 0x64, 0x28, 0x20, 0x11] = .ok (.add 5 3 4, [0x11]) ∧ decode [0x00, 0x64] = .error .truncated := by
  decide

/-- The host's view of a table row, and a placed word as the first instruction after reset. -/
theorem test_table_word :
    decodeTableWord 32 0xFEEDFEED = some .halt ∧ decodeTableWord 32 0x0C000010 = some (.jal 0x10) ∧
    decodeTableWord 32 0x04000000 = none := by decide

/-! ## Single steps -/

/-- What is seen of the next state. -/
def after {α : Type} (r : Result) (see : State → α) : Option α :=
  match r with
  | .next t => some (see t)
  | .fault _ => none
  | .refused _ => none

/-- An image loaded under the default parameters, some registers set, and 80 01 BE EF at 0x100
(95_test_vectors.md section 2.5). -/
def boot (image : List Word) (regs : List (Reg × Word)) : State :=
  let s := regs.foldl (fun s r => s.writeReg r.1 r.2) (State.load true true image)
  s.setMem (s.mem.write32 0x100 0x8001BEEF)

/-- A register and the pc after one step of one word. -/
def regAfter (w : Word) (regs : List (Reg × Word)) (r : Reg) : Option (Word × Word) :=
  after (step (boot [w] regs)) fun t => (t.readReg r, t.pc)

/-- The word at 0x100 and the run state after one step of one word. -/
def memAfter (w : Word) (regs : List (Reg × Word)) : Option (Word × Run) :=
  after (step (boot [w] regs)) fun t => (t.mem.read32 0x100, t.run)

/-- A transfer pending at address 0 and the delay-slot word at 4. -/
def inSlot (c : Control) (slotWord : Word) (regs : List (Reg × Word)) : State :=
  ((boot [0, slotWord] regs).setPc 4).setSlot (some ⟨c, 0, none⟩)

/-- The pc and register 31 after the step that runs the slot. -/
def afterSlot (c : Control) (slotWord : Word) (regs : List (Reg × Word)) : Option (Word × Word) :=
  after (step (inSlot c slotWord regs)) fun t => (t.pc, t.readReg 31)

theorem test_step_runs_placed_word :
    after (step (State.reset.withFetchWord 32 0x24020007)) (fun t => (t.readReg 2, t.pc, t.run)) =
      some (7, 4, .running) := by decide

/-- RA2. -/
theorem test_add_wraps : regAfter 0x00642820 [(3, 0xFFFFFFFF), (4, 0x1)] 5 = some (0x0, 4) := by decide

/-- RA4. -/
theorem test_add_same_register : regAfter 0x00631820 [(3, 0x5)] 3 = some (0xA, 4) := by decide

/-- RA5. -/
theorem test_addu_wraps : regAfter 0x00642821 [(3, 0xFFFFFFFF), (4, 0x2)] 5 = some (0x1, 4) := by decide

/-- RA7. -/
theorem test_sub_borrows : regAfter 0x00642822 [(3, 0x3), (4, 0x7)] 5 = some (0xFFFFFFFC, 4) := by decide

/-- RA8. -/
theorem test_sub_overflow_does_not_trap : regAfter 0x00642822 [(3, 0x80000000), (4, 0x1)] 5 = some (0x7FFFFFFF, 4) := by decide

/-- RA12. -/
theorem test_subu : regAfter 0x00642823 [(3, 0x0), (4, 0x1)] 5 = some (0xFFFFFFFF, 4) := by decide

/-- RA13. -/
theorem test_and : regAfter 0x00642824 [(3, 0xFF00FF00), (4, 0xFF00FF0)] 5 = some (0xF000F00, 4) := by decide

/-- RA15. -/
theorem test_or : regAfter 0x00642825 [(3, 0xFF00FF00), (4, 0xFF00FF0)] 5 = some (0xFFF0FFF0, 4) := by decide

/-- RA17. -/
theorem test_nor : regAfter 0x00642827 [(3, 0xFF00FF00), (4, 0xFF00FF0)] 5 = some (0xF000F, 4) := by decide

/-- RA19. -/
theorem test_sll_3 : regAfter 0x000428C0 [(4, 0x80000001)] 5 = some (0x8, 4) := by decide

/-- RA21. -/
theorem test_sll_31 : regAfter 0x00042FC0 [(4, 0x3)] 5 = some (0x80000000, 4) := by decide

/-- RA22. -/
theorem test_srl_3 : regAfter 0x000428C2 [(4, 0x80000001)] 5 = some (0x10000000, 4) := by decide

/-- RA23. -/
theorem test_srl_31 : regAfter 0x00042FC2 [(4, 0x80000000)] 5 = some (0x1, 4) := by decide

/-- RA25. -/
theorem test_slt_negative : regAfter 0x0064282A [(3, 0xFFFFFFFF), (4, 0x1)] 5 = some (0x1, 4) := by decide

/-- RA27. -/
theorem test_slt_extremes : regAfter 0x0064282A [(3, 0x80000000), (4, 0x7FFFFFFF)] 5 = some (0x1, 4) := by decide

/-- RA29. -/
theorem test_sltu_large : regAfter 0x0064282B [(3, 0xFFFFFFFF), (4, 0x1)] 5 = some (0x0, 4) := by decide

/-- RA31. -/
theorem test_sltu_equal : regAfter 0x0064282B [(3, 0x5), (4, 0x5)] 5 = some (0x0, 4) := by decide

/-- IA2. -/
theorem test_addi_overflow_does_not_trap : regAfter 0x20220001 [(1, 0x7FFFFFFF)] 2 = some (0x80000000, 4) := by decide

/-- IA4. -/
theorem test_addi_minimum : regAfter 0x20228000 [] 2 = some (0xFFFF8000, 4) := by decide

/-- IA6. -/
theorem test_addiu_sign_extends : regAfter 0x2422FFFF [] 2 = some (0xFFFFFFFF, 4) := by decide

/-- IA9. -/
theorem test_andi_zero_extends : regAfter 0x3022FFFF [(1, 0xFFFFFFFF)] 2 = some (0xFFFF, 4) := by decide

/-- IA11. -/
theorem test_ori_zero_extends : regAfter 0x34228000 [] 2 = some (0x8000, 4) := by decide

/-- IA13. -/
theorem test_lui : regAfter 0x3C028000 [] 2 = some (0x80000000, 4) := by decide

/-- IA15. -/
theorem test_slti_signed : regAfter 0x2822FFFF [(1, 0xFFFFFFFE)] 2 = some (0x1, 4) := by decide

/-- IA16. -/
theorem test_slti_zero : regAfter 0x2822FFFF [] 2 = some (0x0, 4) := by decide

/-- IA19. -/
theorem test_sltiu_sign_extends : regAfter 0x2C22FFFF [(1, 0x10000)] 2 = some (0x1, 4) := by decide

/-- IA20. -/
theorem test_sltiu_equal : regAfter 0x2C22FFFF [(1, 0xFFFFFFFF)] 2 = some (0x0, 4) := by decide

/-- LS1. -/
theorem test_lbu_zero_extends : regAfter 0x90220000 [(1, 0x100)] 2 = some (0x80, 4) := by decide

/-- LS9. -/
theorem test_lbu_wraps : regAfter 0x9022FFFF [] 2 = some (0x0, 4) := by decide

/-- LS4. -/
theorem test_lhu : regAfter 0x94220002 [(1, 0x100)] 2 = some (0xBEEF, 4) := by decide

/-- LS7. -/
theorem test_lw_negative_displacement : regAfter 0x8C22FFFC [(1, 0x104)] 2 = some (0x8001BEEF, 4) := by decide

/-- LS11. -/
theorem test_lw_base_is_destination : regAfter 0x8C210000 [(1, 0x100)] 1 = some (0x8001BEEF, 4) := by decide

/-- LS5. -/
theorem test_lhu_misaligned : memAfter 0x94220001 [(1, 0x100)] = some (0x8001BEEF, .fault .dataMisaligned 0x101) := by decide

/-- LS12. -/
theorem test_sb_low_byte : memAfter 0xA0220000 [(1, 0x100), (2, 0xAABBCCDD)] = some (0xDD01BEEF, .running) := by decide

/-- LS13. -/
theorem test_sb_last_byte : memAfter 0xA0220003 [(1, 0x100), (2, 0xAABBCCDD)] = some (0x8001BEDD, .running) := by decide

/-- LS14. -/
theorem test_sh_low_half : memAfter 0xA4220002 [(1, 0x100), (2, 0xAABBCCDD)] = some (0x8001CCDD, .running) := by decide

/-- LS15. -/
theorem test_sh_misaligned : memAfter 0xA4220001 [(1, 0x100), (2, 0xAABBCCDD)] = some (0x8001BEEF, .fault .dataMisaligned 0x101) := by decide

/-- LS16. -/
theorem test_sw : memAfter 0xAC220000 [(1, 0x100), (2, 0xAABBCCDD)] = some (0xAABBCCDD, .running) := by decide

/-- LS17. -/
theorem test_sw_misaligned : memAfter 0xAC220002 [(1, 0x100), (2, 0xAABBCCDD)] = some (0x8001BEEF, .fault .dataMisaligned 0x102) := by decide

/-- CF2. -/
theorem test_beq_not_taken : afterSlot (.beq 1 2 2) 0x0 [(1, 0x5), (2, 0x6)] = some (0x8, 0x0) := by decide

/-- CF3. -/
theorem test_bne_taken : afterSlot (.bne 1 2 2) 0x0 [(1, 0x5), (2, 0x6)] = some (0x10, 0x0) := by decide

/-- CF4. -/
theorem test_bne_not_taken : afterSlot (.bne 1 2 2) 0x0 [(1, 0x5), (2, 0x5)] = some (0x8, 0x0) := by decide

/-- CF6. -/
theorem test_bgtz_zero_not_taken : afterSlot (.bgtz 1 2) 0x0 [] = some (0x8, 0x0) := by decide

/-- CF8. -/
theorem test_bgtz_maximum_taken : afterSlot (.bgtz 1 2) 0x0 [(1, 0x7FFFFFFF)] = some (0x10, 0x0) := by decide

/-- CF10. -/
theorem test_blez_negative_taken : afterSlot (.blez 1 2) 0x0 [(1, 0x80000000)] = some (0x10, 0x0) := by decide

/-- CF11. -/
theorem test_blez_one_not_taken : afterSlot (.blez 1 2) 0x0 [(1, 0x1)] = some (0x8, 0x0) := by decide

/-- CF12. -/
theorem test_beq_taken_backwards : afterSlot (.beq 0 0 0xFFFE) 0x0 [] = some (0x0, 0x0) := by decide

/-- CF16. -/
theorem test_j : afterSlot (.j 0x10) 0x0 [] = some (0x40, 0x0) := by decide

/-- CF18. -/
theorem test_jal_overwrites_the_slot : afterSlot (.jal 0x10) 0x241F0055 [] = some (0x40, 0x8) := by decide

/-- CF22. -/
theorem test_jr_after_the_slot : afterSlot (.jr 31) 0x27FF0008 [(31, 0x40)] = some (0x48, 0x48) := by decide

/-- CF23. -/
theorem test_jr_unaligned : afterSlot (.jr 1) 0x0 [(1, 0x6)] = some (0x6, 0x0) := by decide

/-! ## Witnesses: for every obligation with hypotheses, inputs that meet them, at the boundary values of each clause -/

theorem exists_next {r : Result} {P : State → Prop} [DecidablePred P]
    (h : after r (fun t => decide (P t)) = some true) : ∃ t, r = .next t ∧ P t := by
  cases r with
  | next t => exact ⟨t, rfl, by simpa [after] using h⟩
  | fault f => simp [after] at h
  | refused f => simp [after] at h

theorem meetsFW {s : State} (h : s.pc.toNat % 4 = 0 ∧ s.inFetchWindow s.pc = true) : FW s := h

theorem at_instr {s : State} {i : Instr} {P : Instr → Prop} (hi : instrAt s = some i) (hP : P i) :
    ∀ j, instrAt s = some j → P j := by
  intro j hj
  obtain rfl : i = j := Option.some.inj (hi.symm.trans hj)
  exact hP

theorem witness_EncodeThenDecode : (Instr.sll 31 31 31).wf = true := by decide

theorem witness_DecodeThenEncode : decodeWord 0x006428E0 = .ok (.add 5 3 4) := by decide

theorem witness_DispatchReadsOpcodeAndFunctOnly :
    (0x00642820#32 ≠ sentinel ∧ 0x006428E0#32 ≠ sentinel ∧ opcodeAt 0x00642820 = opcodeAt 0x006428E0 ∧
      (opcodeAt 0x00642820 = 0 → functAt 0x00642820 = functAt 0x006428E0)) ∧
    (0xFEEDFEEC#32 ≠ sentinel ∧ 0xFFFFFFFF#32 ≠ sentinel ∧ opcodeAt 0xFEEDFEEC = opcodeAt 0xFFFFFFFF ∧
      (opcodeAt 0xFEEDFEEC = 0 → functAt 0xFEEDFEEC = functAt 0xFFFFFFFF)) := by decide

theorem witness_AddRule : opcodeAt 0x03FFFFE0 = 0x00 ∧ functAt 0x03FFFFE0 = 0x20 := by decide

theorem witness_AddiRule : opcodeAt 0x23FFFFFF = 0x08 := by decide

theorem witness_AccessesAreBigEndian : Outside 0xFFFFFFFF 2 1 ∧ Outside 0xFFFFFFFF 4 (2 ^ 32 - 2) := by
  unfold Outside
  decide

theorem witness_EqualReadsMeanEqualMemories :
    ∃ m m' : Memory, m.wf ∧ m'.wf ∧ m ≠ [] ∧ ∀ a, a < 2 ^ 32 → m.read a = m'.read a :=
  ⟨[(0, 1), (2 ^ 32 - 1, 2)], [(0, 1), (2 ^ 32 - 1, 2)], by decide, by decide, by decide, fun _ _ => rfl⟩

theorem witness_LoadHalfwordResult : ((boot [] []).effectiveAddress 1 0xFFFE).toNat % 2 = 0 := by decide

theorem witness_LoadWordResult : ((boot [] []).effectiveAddress 1 0xFFFC).toNat % 4 = 0 := by decide

theorem witness_StoreHalfwordResult : ((boot [] [(1, 0x100)]).effectiveAddress 1 2).toNat % 2 = 0 := by decide

theorem witness_StoreWordResult : ((boot [] [(1, 0x100)]).effectiveAddress 1 0).toNat % 4 = 0 := by decide

theorem witness_MisalignedAccessesStop :
    ((boot [] []).effectiveAddress 1 0xFFFF).toNat % 2 ≠ 0 ∧
    ((boot [] []).effectiveAddress 1 0xFFFE).toNat % 4 ≠ 0 := by decide

theorem witness_BranchesEnterTheDelaySlot :
    (boot [0x10220002, 0] [(1, 5)]).slot = none ∧ (State.load true false [0x10220002, 0]).slot = none := by decide

theorem witness_JumpsEnterTheDelaySlot : (boot [0x0C000010, 0] []).slot = none := by decide

theorem witness_ControlInDelaySlotStops :
    asControl (.jal 0x10) = some (.jal 0x10) ∧ (inSlot (.j 0) 0x0C000010 []).slot = some ⟨.j 0, 0, none⟩ := by decide

/-- A delay slot that runs without stopping, with the control-flow instruction `c` pending. -/
abbrev SlotRuns (c : Control) : Prop :=
  ∃ s t p i, s.run = .running ∧ s.slot = some p ∧ FW s ∧ instrAt s = some i ∧ exec i s = .next t ∧
    t.run = .running ∧ p.control = c

theorem slotRuns (c : Control) : SlotRuns c := by
  have hi : instrAt (inSlot c 0x24010001 []) = some (.addiu 1 0 1) := by
    rw [instrAt_eq_some]
    show decodeWord ((boot [0, 0x24010001] []).mem.read32 4) = _
    decide
  have hf : FW (inSlot c 0x24010001 []) := by
    show (4#32).toNat % 4 = 0 ∧ (boot [0, 0x24010001] []).inFetchWindow 4 = true
    decide
  obtain ⟨t, ht, hw⟩ := writeBack_writesReg (inSlot c 0x24010001 []) 1 _
  exact ⟨_, t, _, _, rfl, rfl, hf, hi, ht, hw.run, rfl⟩

theorem witness_ConditionalBranchOutcome :
    SlotRuns (.beq 0 1 0x8000) ∧ SlotRuns (.bne 0 1 0x7FFF) ∧ SlotRuns (.bgtz 1 0xFFFF) ∧ SlotRuns (.blez 1 0) :=
  ⟨slotRuns _, slotRuns _, slotRuns _, slotRuns _⟩

theorem witness_JumpOutcome : SlotRuns (.j 0x3FFFFFF) ∧ SlotRuns (.jr 1) ∧ SlotRuns (.jal 0) :=
  ⟨slotRuns _, slotRuns _, slotRuns _⟩

theorem witness_DelaySlotRunsExactlyOnce :
    ∃ s i c, s.run = .running ∧ s.slot = none ∧ FW s ∧ instrAt s = some i ∧ asControl i = some c ∧
      let s1 : State := { s with pc := s.pc + 4, slot := some ⟨c, s.pc, s.earlyOutcome c⟩ }
      ∃ i' u, FW s1 ∧ instrAt s1 = some i' ∧ exec i' s1 = .next u ∧ u.run = .running := by
  let s := boot [0x10220002, 0x24010001] []
  let s1 : State := { s with pc := s.pc + 4, slot := some ⟨.beq 1 2 2, s.pc, s.earlyOutcome (.beq 1 2 2)⟩ }
  obtain ⟨u, hu, hr⟩ := exists_next (r := exec (.addiu 1 0 1) s1) (P := fun u => u.run = .running) (by decide)
  refine ⟨s, .beq 1 2 2, .beq 1 2 2, by decide, by decide, meetsFW (by decide), by decide, by decide, .addiu 1 0 1, ?_⟩
  exact ⟨u, meetsFW (by decide), by decide, hu, hr⟩

theorem witness_ControlFlowTouchesOnlyTheLink :
    (∃ t, exec (.jal 0x10) (boot [] []) = .next t ∧ asControl (.jal 0x10) = some (.jal 0x10)) ∧
    ((31 : Reg) = 31 → ∀ address, (Control.jr 31) ≠ .jal address) ∧
    ((30 : Reg) = 31 → ∀ address, (Control.jal 0) ≠ .jal address) :=
  ⟨exists_next (by decide), fun _ _ => nofun, fun h => absurd h (by decide)⟩

theorem witness_StepRunsTheDecodedInstruction :
    (inSlot (.jal 0x10) 0x241F0055 []).run = .running ∧ FW (inSlot (.jal 0x10) 0x241F0055 []) ∧
    decode [0x24, 0x1F, 0x00, 0x55] = .ok (.addiu 31 0 0x55, []) ∧
    [0, 1, 2, 3].map (fun k => (inSlot (.jal 0x10) 0x241F0055 []).mem.read8 (4 + k)) = [0x24, 0x1F, 0x00, 0x55] :=
  ⟨by decide, meetsFW (by decide), by decide, by decide⟩

theorem witness_FetchIsAdmittedInOrder :
    ((boot [0, 0] []).run = .running ∧ ((boot [0, 0] []).setPc 7).pc.toNat % 4 ≠ 0) ∧
    (((boot [0, 0] []).setPc 8).pc.toNat % 4 = 0 ∧
      ∀ r ∈ (boot [0, 0] []).config.fetchWindow, ¬ (r.lo ≤ 8 ∧ 8 < r.hi)) := by decide

theorem witness_SentinelHalts :
    ∃ s : State, s.run = .running ∧ FW s ∧ s.slot ≠ none ∧ s.mem.read32 s.pc = 0xFEEDFEED#32 :=
  ⟨inSlot (.j 0) 0xFEEDFEED [], by decide, meetsFW (by decide), by decide, by decide⟩

theorem witness_IllegalWordStops :
    ∃ s e, s.run = .running ∧ FW s ∧ s.slot ≠ none ∧ decodeWord (s.mem.read32 s.pc) = .error e :=
  ⟨inSlot (.j 0) 0x0000000C [], .illegalFunct 0x0C, by decide, meetsFW (by decide), by decide, by decide⟩

theorem witness_TerminalStatesHaveNoStep : ((boot [] []).stop .halted).run ≠ .running := by decide

theorem witness_StopsArePrecise :
    (∃ t, step (boot [0xFEEDFEED] []) = .next t ∧ t.run ≠ .running) ∧
    (∃ t, step (inSlot (.jal 0) 0xFFFFFFFF []) = .next t ∧ t.run ≠ .running) :=
  ⟨exists_next (by decide), exists_next (by decide)⟩

theorem witness_OnlyDestinationRegistersChange :
    ∃ s t r, step s = .next t ∧ s.slot ≠ none ∧ (∀ i, instrAt s = some i → destReg i ≠ some r) ∧
      (∀ p, s.slot = some p → linkOf p.control ≠ some r) := by
  obtain ⟨t, ht, -⟩ := exists_next (r := step (inSlot (.jal 0) 0x24010001 [(5, 7)])) (P := fun _ => True) (by decide)
  refine ⟨_, t, 5, ht, by decide, at_instr (i := .addiu 1 0 1) (by decide) (by decide), ?_⟩
  rintro p hp
  cases hp
  decide

theorem witness_OnlyStoresChangeMemory :
    ∃ s t b, step s = .next t ∧ t.mem ≠ s.mem ∧
      ∀ i a n, instrAt s = some i → storeAccess s i = some (a, n) → Outside a n b := by
  obtain ⟨t, ht, hm⟩ := exists_next (r := step (boot [0xAC220000] [(1, 0x100)]))
    (P := fun t => t.mem ≠ (boot [0xAC220000] [(1, 0x100)]).mem) (by decide)
  refine ⟨_, t, 0x104, ht, hm, fun i a n hi => ?_⟩
  refine at_instr (P := fun i => storeAccess _ i = some (a, n) → Outside a n 0x104) (i := .sw 2 1 0) (by decide) ?_ i hi
  intro h
  cases h
  show ∀ k < 4, _
  decide

theorem witness_ConfigurationNeverChanges :
    ∃ t, step (boot [0x0C000010, 0] []) = .next t ∧ t.slot ≠ none := exists_next (by decide)

theorem witness_PcAdvancesByFour :
    (boot [0x20220005] []).slot = none ∧ ∃ t, step (boot [0x20220005] []) = .next t ∧ t.run = .running :=
  ⟨by decide, exists_next (by decide)⟩

theorem witness_PcStaysAlignedButForJr :
    ∃ s t, step s = .next t ∧ s.slot ≠ none ∧ s.pc.toNat % 4 = 0 ∧ ∀ p rs, s.slot = some p → p.control ≠ .jr rs := by
  obtain ⟨t, ht, -⟩ := exists_next (r := step (inSlot (.j 0x10) 0 [])) (P := fun _ => True) (by decide)
  refine ⟨_, t, ht, by decide, by decide, ?_⟩
  rintro p rs hp
  cases hp
  nofun

/-- A state in a delay slot, under both parameters' other settings, that meets the invariant and steps. -/
theorem witness_StepKeepsTheInvariant : ∃ s t, Invariant s ∧ step s = .next t ∧ s.slot ≠ none := by
  let s : State :=
    { State.load false false [0x10220002, 0x24010001] with pc := 4, slot := some ⟨.beq 1 2 2, 0, some true⟩ }
  obtain ⟨t, ht, -⟩ := exists_next (r := step s) (P := fun _ => True) (by decide)
  refine ⟨s, t, ?_, ht, by decide⟩
  exact
    { memory := by decide
      zeroRegister := by decide
      slotPc := by rintro p hp -; cases hp; decide
      slotAligned := by rintro p hp; cases hp; decide
      slotEarly := by rintro p hp; cases hp; decide
      halted := by decide
      illegal := nofun }

theorem witness_LoadPlacesTheImage : [0xFEEDFEED#32].length ≤ 2 ^ 30 ∧ 0 < [0xFEEDFEED#32].length ∧
    4 * [0xFEEDFEED#32].length ≤ 4 := by decide

theorem witness_StartupErrors : [0x01#8, 0x02, 0x03].length % 4 ≠ 0 := by decide

theorem witness_ObservationOfEachStop :
    (boot [] []).run = .running ∧ ((boot [] []).stop .halted).run = .halted ∧
    ((boot [] []).stop (.illegal 1)).run = .illegal 1 ∧
    ((boot [] []).stop (.fault .dataMisaligned 0x101)).run = .fault .dataMisaligned 0x101 := by decide

theorem witness_NoFaultForWellBehavedPrograms :
    ∃ s : State, s.run = .running ∧ FW s ∧ DS s ∧ AL s ∧ s.slot ≠ none := by
  have hi : instrAt (inSlot (.j 0) 0x8C220100 []) = some (.lw 2 1 0x100) := by decide
  refine ⟨inSlot (.j 0) 0x8C220100 [], by decide, meetsFW (by decide), at_instr hi (fun _ => rfl), fun i a n hj => ?_, by decide⟩
  refine at_instr (P := fun i => dataAccess _ i = some (a, n) → a.toNat % n = 0) hi ?_ i hj
  intro h
  cases h
  decide

theorem witness_RegisterZeroParameterIrrelevant :
    ∃ s t, s.gpr[(0 : Reg)] = 0#32 ∧ step (withR0Writable s true) = .next t ∧ t.gpr[(0 : Reg)] = 0#32 ∧
      t.readReg 1 = 1 := by
  obtain ⟨t, ht, h0, h1⟩ := exists_next (r := step (withR0Writable (boot [0x24010001] []) true))
    (P := fun t => t.gpr[(0 : Reg)] = 0#32 ∧ t.readReg 1 = 1) (by decide)
  exact ⟨_, t, by decide, ht, h0, h1⟩

/-- The slot writes register 5, and the branch compares 1 and 2 and is taken. -/
theorem witness_CompareTimingParameterIrrelevant :
    ∃ s s1 t i c, s.slot = none ∧ instrAt s = some i ∧ asControl i = some c ∧
      step (withCompareAfterSlot s true) = .next s1 ∧ step s1 = .next t ∧ t.run = .running ∧ t.pc = 0x10 ∧
      ∀ r ∈ comparedRegs c, t.readReg r = s.readReg r := by
  let s := boot [0x10220002, 0x24050001] [(1, 5), (2, 5)]
  obtain ⟨s1, h1, h⟩ := exists_next (r := step (withCompareAfterSlot s true)) (P := fun s1 =>
    after (step s1) (fun t => decide (t.run = .running ∧ t.pc = 0x10 ∧ t.readReg 1 = 5 ∧ t.readReg 2 = 5)) = some true)
    (by decide)
  obtain ⟨t, ht, hr, hpc, h5, h5'⟩ := exists_next h
  refine ⟨s, s1, t, .beq 1 2 2, .beq 1 2 2, by decide, by decide, rfl, h1, ht, hr, hpc, ?_⟩
  intro r hr
  fin_cases hr
  · exact h5.trans (by decide)
  · exact h5'.trans (by decide)

theorem witness_TwoStepsAgreeWithNestedCycle :
    (∃ s i c, s.run = .running ∧ s.slot = none ∧ FW s ∧ instrAt s = some i ∧ asControl i = some c) ∧
    (∃ s : State, s.run = .running ∧ s.slot = none ∧ ∀ i c, FW s → instrAt s = some i → asControl i ≠ some c) := by
  refine ⟨⟨boot [0x0C000010, 0] [], .jal 0x10, .jal 0x10, by decide, by decide, meetsFW (by decide), by decide, rfl⟩,
    boot [0x24010001] [], by decide, by decide, fun i c _ hi => ?_⟩
  exact at_instr (i := .addiu 1 0 1) (P := fun i => asControl i ≠ some c) (by decide) nofun i hi

theorem witness_StoreIsSeenByTheFetch :
    ∃ s t u, exec (.sw 2 1 0) s = .next t ∧ t.run = .running ∧ s.run = .running ∧ u.mem = t.mem ∧
      u.pc = s.effectiveAddress 1 0 ∧ FW u := by
  obtain ⟨t, ht, hr⟩ := exists_next (r := exec (.sw 2 1 0) (boot [0, 0] [(1, 4), (2, 0xFEEDFEED)]))
    (P := fun t => t.run = .running) (by decide)
  exact ⟨boot [0, 0] [(1, 4), (2, 0xFEEDFEED)], t, { boot [0, 0] [] with pc := 4, mem := t.mem }, ht, hr, by decide, rfl,
    (by decide : (4 : Word) = (boot [0, 0] [(1, 4), (2, 0xFEEDFEED)]).effectiveAddress 1 0),
    (by decide : (4 : Word).toNat % 4 = 0 ∧ (boot [0, 0] []).inFetchWindow 4 = true)⟩

theorem witness_ZeroWordIsTheNop :
    ∃ s : State, s.run = .running ∧ s.slot = none ∧ FW s ∧ s.mem.read32 s.pc = 0#32 :=
  ⟨State.load false true [0], by decide, by decide, meetsFW (by decide), by decide⟩

end Sys2Proof.Tests
end

section
/-! PROOFS of the family 10_state.md, part 1. What one step does to the state, as one case per effect, and what the
transfer at its end leaves alone. -/

namespace Sys2Proof.Machine

open Sys2Proof.Safety

variable {s t : State}

/-! ## Only the sentinel is `halt` -/

theorem dispatchFunct_ne_halt {funct : BitVec 6} {build : Fields → Instr}
    (h : dispatchFunct funct = some build) (f : Fields) : build f ≠ .halt := by
  unfold dispatchFunct at h
  split at h <;> cases h <;> nofun

theorem dispatchOpcode_ne_halt {opcode : BitVec 6} {build : Fields → Instr}
    (h : dispatchOpcode opcode = some build) (f : Fields) : build f ≠ .halt := by
  unfold dispatchOpcode at h
  split at h <;> cases h <;> nofun

theorem dispatch_ne_halt {opcode funct : BitVec 6} {build : Fields → Instr}
    (h : dispatch opcode funct = some build) (f : Fields) : build f ≠ .halt := by
  unfold dispatch at h
  split at h
  · exact dispatchFunct_ne_halt h f
  · exact dispatchOpcode_ne_halt h f

/-- A word read as `halt` was compared with the sentinel (40_cycle.md R82): no dispatch row builds `halt`. -/
theorem decodeWord_eq_halt {w : Word} (h : decodeWord w = .ok .halt) : w = sentinel := by
  by_contra hw
  unfold decodeWord at h
  rw [if_neg hw] at h
  dsimp only at h
  split at h
  · rename_i build hb
    injection h with h
    exact dispatch_ne_halt hb _ h
  · cases h

/-! ## One case per effect of a step -/

/-- What one step can do to `s` (40_cycle.md R80), each case with what was met at the pc: five stops, step 1 of a
control-flow instruction, and the two effects after which the pending transfer is applied. -/
inductive StepEffect (s : State) : State → Prop
  | fetchFault {k : FaultKind} (hk : s.fetch = .error (.fault k s.pc)) : StepEffect s (s.stop (.fault k s.pc))
  | illegal {e : DecodeReject} (hf : FW s) (he : decodeWord (s.mem.read32 s.pc) = .error e) :
      StepEffect s (s.advance.stop (.illegal (s.mem.read32 s.pc)))
  | halt (hf : FW s) (hw : s.mem.read32 s.pc = sentinel) : StepEffect s (s.stop .halted)
  | misaligned {i : Instr} {a : Word} {n : Nat} (hf : FW s) (hi : instrAt s = some i)
      (ha : dataAccess s i = some (a, n)) (hn : a.toNat % n ≠ 0) :
      StepEffect s (s.advance.stop (.fault .dataMisaligned a))
  | controlInSlot {i : Instr} {c : Control} {p : Pending} (hf : FW s) (hi : instrAt s = some i)
      (hc : asControl i = some c) (hp : s.slot = some p) :
      StepEffect s (s.advance.stop (.fault .controlInDelaySlot s.pc))
  | issue {i : Instr} {c : Control} (hf : FW s) (hi : instrAt s = some i)
      (hc : asControl i = some c) (hs : s.slot = none) :
      StepEffect s (s.advance.setSlot (some ⟨c, s.pc, s.earlyOutcome c⟩))
  | write {i : Instr} {rd : Reg} {v : Word} (hf : FW s) (hi : instrAt s = some i)
      (hd : destReg i = some rd) : StepEffect s ((s.advance.writeReg rd v).retire s.slot)
  | store {i : Instr} {a : Word} {n : Nat} {m : Memory} (hf : FW s) (hi : instrAt s = some i)
      (ha : storeAccess s i = some (a, n)) (hwf : s.mem.wf → m.wf)
      (hm : ∀ b, Outside a n b → m.read b = s.mem.read b) :
      StepEffect s ((s.advance.setMem m).retire s.slot)

/-- A fetch that reads no word meets a fault that records the pc (20_memory.md R46). -/
theorem fetch_error {k : Run} (h : s.fetch = .error k) : ∃ f, k = .fault f s.pc := by
  rcases fetch_cases s with ⟨-, e⟩ | ⟨-, -, e⟩ | ⟨-, e⟩ <;> cases h.symm.trans e
  · exact ⟨_, rfl⟩
  · exact ⟨_, rfl⟩

/-- An executed instruction and the end of its step, from `exec_cases`: a stop drops the transfer (R86). -/
theorem exec_retire_effect {i : Instr} {u : State} (hf : FW s) (hi : instrAt s = some i)
    (h : exec i s = .next u) : StepEffect s (u.retire s.slot) := by
  rcases exec_cases h with
    ⟨rd, v, hd, rfl⟩ | ⟨a, n, m, ha, rfl, hwf, hm⟩ | ⟨a, n, ha, hn, rfl⟩ | ⟨c, hc, hu⟩ | ⟨rfl, rfl⟩
  · exact .write hf hi hd
  · exact .store hf hi ha hwf hm
  · rw [retire_of_stopped (by simp)]
    exact .misaligned hf hi ha hn
  · rcases issue_next hu with ⟨hs, rfl⟩ | ⟨p, hp, rfl⟩
    · rw [hs]
      exact .issue hf hi hc hs
    · rw [retire_of_stopped (by simp)]
      exact .controlInSlot hf hi hc hp
  · rw [retire_of_stopped (by simp)]
    exact .halt hf (decodeWord_eq_halt (instrAt_eq_some.mp hi))

/-- The inversion lemma of `step`, with the delay slot and the stops resolved. -/
theorem step_effect (h : step s = .next t) : s.run = .running ∧ StepEffect s t := by
  obtain ⟨hr, ⟨k, hk, rfl⟩ | ⟨w, e, hw, he, rfl⟩ | ⟨w, i, u, hw, hi, hx, rfl⟩⟩ := step_cases h
  · obtain ⟨f, rfl⟩ := fetch_error hk
    exact ⟨hr, .fetchFault hk⟩
  · obtain ⟨hf, rfl⟩ := fetch_ok hw
    exact ⟨hr, .illegal hf he⟩
  · obtain ⟨hf, rfl⟩ := fetch_ok hw
    exact ⟨hr, exec_retire_effect hf (instrAt_eq_some.mpr hi) hx⟩

/-! ## Steps that stop before any instruction runs -/

theorem step_of_fetch_error {k : Run} (hr : s.run = .running) (h : s.fetch = .error k) :
    step s = .next (s.stop k) := by
  unfold step
  rw [if_pos hr, h]

theorem step_of_illegal {w : Word} {e : DecodeReject} (hr : s.run = .running) (h : s.fetch = .ok w)
    (he : decodeWord w = .error e) : step s = .next (s.advance.stop (.illegal w)) := by
  unfold step
  rw [if_pos hr, h]
  simp only [he]
  rfl

/-! ## The end of a step, field by field -/

section Retire
variable (s : State) (before : Option Pending)
@[simp] theorem retire_mem : (s.retire before).mem = s.mem := (retire_frame s before).1
@[simp] theorem retire_config : (s.retire before).config = s.config := (retire_frame s before).2.1
@[simp] theorem retire_run : (s.retire before).run = s.run := (retire_frame s before).2.2
end Retire

/-- A step that goes on leaves no transfer pending (40_cycle.md R85). -/
theorem retire_slot {before : Option Pending} (hr : s.run = .running) (hs : s.slot = before) :
    (s.retire before).slot = none := by
  cases before with
  | none => exact hs
  | some p => rw [retire_of_running hr, State.setSlot_slot]

theorem retire_readReg (s : State) {before : Option Pending} {r : Reg}
    (h : ∀ p, before = some p → linkOf p.control ≠ some r) : (s.retire before).readReg r = s.readReg r := by
  unfold State.retire
  split
  · rfl
  · rename_i p
    split
    · exact resolve_readReg s p (h p rfl)
    · rfl

/-! ## Index 0 as stored -/

theorem writeReg_gpr_zero_of_ne (s : State) {i : Reg} (h : i ≠ 0) (v : Word) :
    (s.writeReg i v).gpr[(0 : Reg)] = s.gpr[(0 : Reg)] := by
  have hi : (i : Nat) ≠ 0 := fun e => h (Fin.ext e)
  simp [State.writeReg, h, hi]

/-- No transfer writes index 0: jal's link is another register, under both settings of `R0_WRITABLE`. -/
theorem resolve_gpr_zero (s : State) (p : Pending) : (s.resolve p).gpr[(0 : Reg)] = s.gpr[(0 : Reg)] := by
  obtain ⟨c, a, e⟩ := p
  cases c with
  | beq rs rt imm | bne rs rt imm | bgtz rs imm | blez rs imm =>
    exact congrArg (·[(0 : Reg)]) (State.branch_gpr s _ e imm)
  | jal address => exact writeReg_gpr_zero_of_ne s (by decide) s.pc
  | j address | jr rs => rfl

theorem retire_gpr_zero (s : State) (before : Option Pending) :
    (s.retire before).gpr[(0 : Reg)] = s.gpr[(0 : Reg)] := by
  unfold State.retire
  split
  · rfl
  · split
    · exact resolve_gpr_zero s _
    · rfl

/-! ## Alignment of the pc (10_state.md R29, 44_control_flow.md R173) -/

theorem aligned_add_four {a : Word} (h : a.toNat % 4 = 0) : (a + 4).toNat % 4 = 0 := by
  bv_omega

theorem branchTarget_aligned {pc : Word} (h : pc.toNat % 4 = 0) (imm : BitVec 16) :
    (branchTarget pc imm).toNat % 4 = 0 := by
  rw [branchTarget_eq, BitVec.toNat_ofInt]
  omega

theorem jumpTarget_aligned (pc : Word) (address : BitVec 26) : (jumpTarget pc address).toNat % 4 = 0 := by
  rw [jumpTarget_eq, BitVec.toNat_ofNat]
  omega

theorem branch_pc_aligned (h : s.pc.toNat % 4 = 0) (c : Control) (early : Option Bool) (imm : BitVec 16) :
    (s.branch c early imm).pc.toNat % 4 = 0 := by
  unfold State.branch
  split
  · exact branchTarget_aligned h imm
  · exact h

/-- Every transfer but jr's keeps the pc aligned. -/
theorem resolve_pc_aligned (h : s.pc.toNat % 4 = 0) {p : Pending} (hp : ∀ rs, p.control ≠ .jr rs) :
    (s.resolve p).pc.toNat % 4 = 0 := by
  obtain ⟨c, a, e⟩ := p
  cases c with
  | beq rs rt imm | bne rs rt imm | bgtz rs imm | blez rs imm => exact branch_pc_aligned h _ e imm
  | j address | jal address => exact jumpTarget_aligned s.pc address
  | jr rs => exact absurd rfl (hp rs)

theorem retire_pc_aligned (h : s.pc.toNat % 4 = 0) {before : Option Pending}
    (hp : ∀ p rs, before = some p → p.control ≠ .jr rs) : (s.retire before).pc.toNat % 4 = 0 := by
  unfold State.retire
  split
  · exact h
  · rename_i p
    split
    · exact resolve_pc_aligned h fun rs => hp p rs rfl
    · exact h

end Sys2Proof.Machine
end

section
/-! PROOFS of the family 10_state.md, part 2. The invariant after each effect of a step. -/

namespace Sys2Proof.Safety

open Sys2Proof.Machine

variable {s t : State}

/-- Step 1 keeps a compare exactly for a conditional branch compared before its slot (44_control_flow.md R163). -/
theorem earlyOutcome_isSome_iff (s : State) (c : Control) :
    (s.earlyOutcome c).isSome ↔ isConditional c = true ∧ s.config.branchOperandsAfterSlot = false := by
  unfold State.earlyOutcome
  cases s.config.branchOperandsAfterSlot with
  | true => simp
  | false => cases c <;> simp [State.branchTaken, isConditional]

/-- Running with nothing pending, only the memory and index 0 are constrained. -/
theorem invariant_of_running_of_no_slot (memory : s.mem.wf)
    (zeroRegister : s.config.r0Writable = false → s.gpr[(0 : Reg)] = 0#32)
    (hrun : s.run = .running) (hslot : s.slot = none) : Invariant s where
  memory := memory
  zeroRegister := zeroRegister
  slotPc p hp := by simp [hslot] at hp
  slotAligned p hp := by simp [hslot] at hp
  slotEarly p hp := by simp [hslot] at hp
  halted h := by simp [hrun] at h
  illegal w h := by simp [hrun] at h

/-- A step that goes on ends with nothing pending, whatever its transfer does to the pc. -/
theorem invariant_retire {before : Option Pending} (memory : s.mem.wf)
    (zeroRegister : s.config.r0Writable = false → s.gpr[(0 : Reg)] = 0#32)
    (hrun : s.run = .running) (hslot : s.slot = before) : Invariant (s.retire before) :=
  invariant_of_running_of_no_slot (by rwa [retire_mem]) (by rwa [retire_config, retire_gpr_zero])
    (by rwa [retire_run]) (retire_slot hrun hslot)

/-- A stop keeps the pending transfer as it stood (40_cycle.md R80), so it need only be true to what it records. -/
theorem invariant_stop (h : Invariant s) {pc : Word} {k : Run} (running : k ≠ .running)
    (halted : k = .halted → s.mem.read32 pc = sentinel)
    (illegal : ∀ w, k = .illegal w → ∃ e, decodeWord w = .error e) : Invariant ((s.setPc pc).stop k) where
  memory := h.memory
  zeroRegister := h.zeroRegister
  slotPc _ _ hr := absurd hr running
  slotAligned := h.slotAligned
  slotEarly := h.slotEarly
  halted := halted
  illegal := illegal

theorem invariant_fault (h : Invariant s) (pc : Word) (f : FaultKind) (v : Word) :
    Invariant ((s.setPc pc).stop (.fault f v)) :=
  invariant_stop h nofun nofun nofun

/-- Step 1 of a control-flow instruction at an aligned pc (44_control_flow.md R161). -/
theorem invariant_issue (h : Invariant s) (hr : s.run = .running) (ha : s.pc.toNat % 4 = 0) (c : Control) :
    Invariant (s.advance.setSlot (some ⟨c, s.pc, s.earlyOutcome c⟩)) where
  memory := h.memory
  zeroRegister := h.zeroRegister
  slotPc := by rintro p ⟨⟩ -; rfl
  slotAligned := by rintro p ⟨⟩; exact ha
  slotEarly := by rintro p ⟨⟩; exact earlyOutcome_isSome_iff s c
  halted hh := by simp [hr] at hh
  illegal w hw := by simp [hr] at hw

theorem invariant_of_stepEffect (h : Invariant s) (hr : s.run = .running) (he : StepEffect s t) : Invariant t := by
  cases he with
  | fetchFault => exact invariant_fault h s.pc _ _
  | illegal _ he => exact invariant_stop h nofun nofun fun w hw => by cases hw; exact ⟨_, he⟩
  | halt _ hw => exact invariant_stop (pc := s.pc) h nofun (fun _ => hw) nofun
  | misaligned | controlInSlot => exact invariant_fault h (s.pc + 4) _ _
  | issue hf => exact invariant_issue h hr hf.1 _
  | @write _ rd v =>
    refine invariant_retire (by simpa using h.memory) (fun h0 => ?_) (by simpa using hr) (by simp)
    rw [State.writeReg_config] at h0
    rw [State.writeReg_gpr_zero _ rd v h0]
    exact h.zeroRegister h0
  | store _ _ _ hwf => exact invariant_retire (hwf h.memory) h.zeroRegister hr rfl

end Sys2Proof.Safety
end

section
/-! PROOFS of the family 10_state.md, part 3. What the loader's placing of words leaves in memory
(20_memory.md R44). -/

namespace Sys2Proof.Machine

open Sys2Proof.Safety

/-- Outside an access that does not wrap, as a comparison of addresses. -/
theorem outside_of_lt_or_le {a n b : Nat} (ha : a + n ≤ 2 ^ 32) (hb : b < a ∨ a + n ≤ b) :
    Outside (BitVec.ofNat 32 a) n b := by
  intro j hj
  have hv : (BitVec.ofNat 32 a + BitVec.ofNat 32 j).toNat = a + j := by
    rw [← BitVec.ofNat_add, BitVec.toNat_ofNat, Nat.mod_eq_of_lt (by omega)]
  omega

/-- A word access that does not wrap reads its four bytes and nothing else. -/
theorem read32_congr {m m' : Memory} {a : Nat} (ha : a + 4 ≤ 2 ^ 32)
    (h : ∀ b, a ≤ b → b < a + 4 → m.read b = m'.read b) :
    m.read32 (BitVec.ofNat 32 a) = m'.read32 (BitVec.ofNat 32 a) := by
  have hbyte : ∀ j < 4, m.read8 (BitVec.ofNat 32 a + BitVec.ofNat 32 j)
      = m'.read8 (BitVec.ofNat 32 a + BitVec.ofNat 32 j) := by
    intro j hj
    rw [← BitVec.ofNat_add, ← Memory.read_eq_read8 _ _ (by omega), ← Memory.read_eq_read8 _ _ (by omega)]
    exact h _ (by omega) (by omega)
  have h0 : m.read8 (BitVec.ofNat 32 a) = m'.read8 (BitVec.ofNat 32 a) := by
    simpa using hbyte 0 (by decide)
  have h1 : m.read8 (BitVec.ofNat 32 a + 1) = m'.read8 (BitVec.ofNat 32 a + 1) := hbyte 1 (by decide)
  have h2 : m.read8 (BitVec.ofNat 32 a + 2) = m'.read8 (BitVec.ofNat 32 a + 2) := hbyte 2 (by decide)
  have h3 : m.read8 (BitVec.ofNat 32 a + 3) = m'.read8 (BitVec.ofNat 32 a + 3) := hbyte 3 (by decide)
  rw [Memory.read32, Memory.read32, h0, h1, h2, h3]

/-- Placing words changes no byte below the first or past the last. -/
theorem placeWords_read_outside (m : Memory) (k : Nat) (ws : List Word) {b : Nat}
    (hfit : k + ws.length ≤ 2 ^ 30) (hb : b < 4 * k ∨ 4 * (k + ws.length) ≤ b) :
    (m.placeWords k ws).read b = m.read b := by
  induction ws generalizing m k with
  | nil => rfl
  | cons w ws ih =>
    rw [List.length_cons] at hfit hb
    calc ((m.write32 (BitVec.ofNat 32 (4 * k)) w).placeWords (k + 1) ws).read b
      _ = (m.write32 (BitVec.ofNat 32 (4 * k)) w).read b := ih _ _ (by omega) (by omega)
      _ = m.read b := read_write32_outside m _ w (outside_of_lt_or_le (by omega) (by omega))

/-- Each placed word reads back: the words placed after it lie above it. -/
theorem placeWords_read32 (m : Memory) (k : Nat) (ws : List Word) (hfit : k + ws.length ≤ 2 ^ 30)
    (j : Nat) (hj : j < ws.length) :
    (m.placeWords k ws).read32 (BitVec.ofNat 32 (4 * (k + j))) = ws[j] := by
  induction ws generalizing m k j with
  | nil => exact absurd hj (Nat.not_lt_zero j)
  | cons w ws ih =>
    rw [List.length_cons] at hfit hj
    cases j with
    | zero =>
      calc ((m.write32 (BitVec.ofNat 32 (4 * k)) w).placeWords (k + 1) ws).read32 (BitVec.ofNat 32 (4 * k))
        _ = (m.write32 (BitVec.ofNat 32 (4 * k)) w).read32 (BitVec.ofNat 32 (4 * k)) :=
          read32_congr (by omega) fun b _ hb => placeWords_read_outside _ _ _ (by omega) (by omega)
        _ = w := Memory.read32_write32 m _ w
    | succ j =>
      have hk : k + (j + 1) = k + 1 + j := by omega
      rw [hk]
      exact ih _ _ (by omega) j (by omega)

/-- An image that fits is placed whole, and the fetch window is its bytes (20_memory.md R46). -/
theorem load_of_fits {image : List Word} (h : image.length ≤ 2 ^ 30) (r0 after : Bool) :
    (State.load r0 after image).mem = Memory.placeWords [] 0 image ∧
    (State.load r0 after image).config = ⟨r0, after, [⟨0, 4 * image.length⟩]⟩ := by
  have ht : image.take maxImageWords = image := List.take_of_length_le h
  constructor <;> simp [State.load, ht, Config.standard]

theorem readReg_of_gpr_eq_zeros {s : State} (h : s.gpr = Vector.replicate 32 0#32) (r : Reg) :
    s.readReg r = 0#32 := by
  unfold State.readReg
  split
  · rfl
  · simp [h]

end Sys2Proof.Machine
end

section
/-! PROOFS of the family 10_state.md, part 4. Where index 0 holds 0 before and after, each operation commutes with
hard-wiring it (10_state.md R23). -/

namespace Sys2Proof.Safety

open Sys2Proof.Machine

/-- The state under `R0_WRITABLE = false`. -/
abbrev hardwired (s : State) : State := withR0Writable s false

variable {s t u : State}

/-! ## What an instruction reads -/

theorem readReg_hardwired (h0 : s.gpr[(0 : Reg)] = 0#32) (r : Reg) : (hardwired s).readReg r = s.readReg r := by
  by_cases hr : r = 0
  · subst hr
    have hs : s.readReg 0 = 0#32 := by
      unfold State.readReg
      split
      · rfl
      · exact h0
    rw [hs]
    rfl
  · unfold State.readReg
    rw [if_neg (fun e => hr e.1), if_neg (fun e => hr e.1)]
    rfl

theorem effectiveAddress_hardwired (h0 : s.gpr[(0 : Reg)] = 0#32) (rs : Reg) (imm : BitVec 16) :
    (hardwired s).effectiveAddress rs imm = s.effectiveAddress rs imm := by
  unfold State.effectiveAddress
  rw [readReg_hardwired h0]

theorem branchTaken_hardwired (h0 : s.gpr[(0 : Reg)] = 0#32) (c : Control) :
    (hardwired s).branchTaken c = s.branchTaken c := by
  cases c <;> simp only [State.branchTaken, readReg_hardwired h0]

theorem earlyOutcome_hardwired (h0 : s.gpr[(0 : Reg)] = 0#32) (c : Control) :
    (hardwired s).earlyOutcome c = s.earlyOutcome c := by
  unfold State.earlyOutcome
  rw [branchTaken_hardwired h0]
  rfl

/-! ## The shapes of an effect -/

/-- A write after which index 0 still holds 0 did nothing if it was to index 0. -/
theorem writeReg_zero_of_gpr_zero (h0 : s.gpr[(0 : Reg)] = 0#32) {v : Word}
    (hv : (s.writeReg 0 v).gpr[(0 : Reg)] = 0#32) : s.writeReg 0 v = s := by
  unfold State.writeReg at hv ⊢
  split at hv
  · exact if_pos ‹_›
  · have hvz : v = 0#32 := by simpa using hv
    have hset : s.gpr.set (0 : Reg) v = s.gpr := by
      rw [hvz, ← h0]
      exact Vector.set_getElem_self _
    rw [if_neg ‹_›, hset]

theorem writeReg_hardwired (h0 : s.gpr[(0 : Reg)] = 0#32) {rd : Reg} {v : Word}
    (hv : (s.writeReg rd v).gpr[(0 : Reg)] = 0#32) :
    (hardwired s).writeReg rd v = hardwired (s.writeReg rd v) := by
  by_cases hd : rd = 0
  · subst hd
    rw [writeReg_zero_of_gpr_zero h0 hv]
    rfl
  · unfold State.writeReg
    rw [if_neg (fun e => hd e.1), if_neg (fun e => hd e.1)]
    rfl

theorem writeBack_hardwired (h0 : s.gpr[(0 : Reg)] = 0#32) {rd : Reg} {v : Word}
    (h : s.writeBack rd v = .next u) (hu : u.gpr[(0 : Reg)] = 0#32) :
    (hardwired s).writeBack rd v = .next (hardwired u) := by
  obtain rfl := writeBack_next h
  exact congrArg _ (writeReg_hardwired (s := s.advance) h0 hu)

theorem storeBack_hardwired {m : Memory} (h : s.storeBack m = .next u) :
    (hardwired s).storeBack m = .next (hardwired u) := by
  obtain rfl := storeBack_next h
  rfl

theorem stopAfter_hardwired {k : Run} (h : s.stopAfter k = .next u) :
    (hardwired s).stopAfter k = .next (hardwired u) := by
  obtain rfl := stopAfter_next h
  rfl

theorem issue_hardwired (h0 : s.gpr[(0 : Reg)] = 0#32) {c : Control} (h : s.issue c = .next u) :
    (hardwired s).issue c = .next (hardwired u) := by
  rcases issue_next h with ⟨hs, rfl⟩ | ⟨p, hp, rfl⟩
  · rw [issue_of_empty (s := hardwired s) hs, earlyOutcome_hardwired h0]
    rfl
  · rw [issue_of_pending (s := hardwired s) hp]
    rfl

/-- An instruction that leaves 0 at index 0 does the same where index 0 is hard-wired, one case per shape. -/
theorem exec_hardwired {i : Instr} (h0 : s.gpr[(0 : Reg)] = 0#32) (h : exec i s = .next u)
    (hu : u.gpr[(0 : Reg)] = 0#32) : exec i (hardwired s) = .next (hardwired u) := by
  cases i
  case sll | srl | add | addu | sub | subu | and | or | nor | slt | sltu =>
    simp only [exec, execSll, execSrl, execAdd, execAddu, execSub, execSubu, execAnd, execOr, execNor, execSlt,
      execSltu, readReg_hardwired h0]
    exact writeBack_hardwired h0 h hu
  case addi | addiu | slti | sltiu | andi | ori | lui =>
    simp only [exec, execAddi, execAddiu, execSlti, execSltiu, execAndi, execOri, execLui, readReg_hardwired h0]
    exact writeBack_hardwired h0 h hu
  case lbu =>
    simp only [exec, execLbu, effectiveAddress_hardwired h0]
    exact writeBack_hardwired h0 h hu
  case lhu | lw =>
    simp only [exec, execLhu, execLw, effectiveAddress_hardwired h0] at h ⊢
    split at h
    · rw [if_pos ‹_›]
      exact writeBack_hardwired h0 h hu
    · rw [if_neg ‹_›]
      exact stopAfter_hardwired h
  case sb =>
    simp only [exec, execSb, effectiveAddress_hardwired h0, readReg_hardwired h0]
    exact storeBack_hardwired h
  case sh | sw =>
    simp only [exec, execSh, execSw, effectiveAddress_hardwired h0, readReg_hardwired h0] at h ⊢
    split at h
    · rw [if_pos ‹_›]
      exact storeBack_hardwired h
    · rw [if_neg ‹_›]
      exact stopAfter_hardwired h
  case j | jal | jr | beq | bne | blez | bgtz => exact issue_hardwired h0 h
  case halt =>
    obtain rfl := execHalt_next h
    rfl

/-! ## The transfer and the step -/

theorem branch_hardwired (h0 : s.gpr[(0 : Reg)] = 0#32) (c : Control) (early : Option Bool) (imm : BitVec 16) :
    (hardwired s).branch c early imm = hardwired (s.branch c early imm) := by
  unfold State.branch
  rw [branchTaken_hardwired h0]
  split <;> rfl

theorem resolve_hardwired (h0 : s.gpr[(0 : Reg)] = 0#32) (p : Pending) :
    (hardwired s).resolve p = hardwired (s.resolve p) := by
  obtain ⟨c, a, e⟩ := p
  cases c with
  | beq rs rt imm | bne rs rt imm | bgtz rs imm | blez rs imm => exact branch_hardwired h0 _ e imm
  | j address => rfl
  | jal address =>
    have hlink : (s.writeReg linkReg s.pc).gpr[(0 : Reg)] = 0#32 :=
      (writeReg_gpr_zero_of_ne s (by decide) s.pc).trans h0
    exact congrArg (·.setPc (jumpTarget s.pc address)) (writeReg_hardwired h0 hlink)
  | jr rs => exact congrArg (hardwired s).setPc (readReg_hardwired h0 rs)

theorem retire_hardwired (h0 : s.gpr[(0 : Reg)] = 0#32) (before : Option Pending) :
    (hardwired s).retire before = hardwired (s.retire before) := by
  cases before with
  | none => rfl
  | some p =>
    by_cases hr : s.run = .running
    · rw [retire_of_running (s := hardwired s) hr, retire_of_running hr, resolve_hardwired h0]
      rfl
    · rw [retire_of_stopped (s := hardwired s) hr, retire_of_stopped hr]

/-- The transfer does not touch index 0, so 0 stands there already when it reads its operands. -/
theorem step_hardwired (h0 : s.gpr[(0 : Reg)] = 0#32) (h : step s = .next t) (ht : t.gpr[(0 : Reg)] = 0#32) :
    step (hardwired s) = .next (hardwired t) := by
  obtain ⟨hr, ⟨k, hk, rfl⟩ | ⟨w, e, hw, he, rfl⟩ | ⟨w, i, u, hw, hi, hx, rfl⟩⟩ := step_cases h
  · exact step_of_fetch_error (s := hardwired s) hr hk
  · exact step_of_illegal (s := hardwired s) hr hw he
  · rw [retire_gpr_zero] at ht
    obtain ⟨hf, rfl⟩ := fetch_ok hw
    rw [step_of_instr (s := hardwired s) hr hf (instrAt_eq_some.mpr hi), exec_hardwired h0 hx ht]
    exact congrArg _ (retire_hardwired ht s.slot)

end Sys2Proof.Safety
end

section
/-! PROOFS of the family 10_state.md, part 5. The obligations. -/

namespace Sys2Proof.Proofs

open Sys2Proof.Machine Sys2Proof.Safety

/-- Settles O47: by the effects of a step; a step that goes on empties the slot, a stop keeps it. -/
theorem stepKeepsTheInvariant : Obligations.StepKeepsTheInvariant := by
  intro s t h hst
  obtain ⟨hr, he⟩ := step_effect hst
  exact invariant_of_stepEffect h hr he

/-- Settles O42: the register effect writes the destination, the transfer jal's link, and nothing else writes. -/
theorem onlyDestinationRegistersChange : Obligations.OnlyDestinationRegistersChange := by
  intro s t r hst hdest hlink
  obtain ⟨-, he⟩ := step_effect hst
  cases he with
  | fetchFault | illegal | halt | misaligned | controlInSlot | issue => rfl
  | @write i rd v _ hi hd =>
    have hne : r ≠ rd := fun e => hdest i hi (e ▸ hd)
    rw [retire_readReg _ hlink, State.readReg_writeReg_of_ne _ _ _ hne, State.advance_readReg]
  | store => exact retire_readReg _ hlink

/-- Settles O44: by the effects of a step. -/
theorem configurationNeverChanges : Obligations.ConfigurationNeverChanges := by
  intro s t hst
  obtain ⟨-, he⟩ := step_effect hst
  cases he with
  | fetchFault | illegal | halt | misaligned | controlInSlot | issue => rfl
  | write | store => simp

/-- Settles O45: the stops do not go on, and with nothing pending the end of the step does nothing. -/
theorem pcAdvancesByFour : Obligations.PcAdvancesByFour := by
  intro s t hst hs ht
  obtain ⟨-, he⟩ := step_effect hst
  have hpc : t.pc = s.pc + 4 := by
    cases he with
    | fetchFault | illegal | halt | misaligned | controlInSlot => cases ht
    | issue => rfl
    | write | store => simp [hs]
  rw [hpc, BitVec.toNat_add]
  rfl

/-- Settles O46: moving on keeps the alignment, and so does every transfer but jr's. -/
theorem pcStaysAlignedButForJr : Obligations.PcStaysAlignedButForJr := by
  intro s t hst ha hjr
  have hnext : (s.pc + 4).toNat % 4 = 0 := aligned_add_four ha
  obtain ⟨-, he⟩ := step_effect hst
  cases he with
  | fetchFault | halt => exact ha
  | illegal | misaligned | controlInSlot | issue => exact hnext
  | write => exact retire_pc_aligned (by simpa using hnext) hjr
  | store => exact retire_pc_aligned hnext hjr

/-- Settles O49: placing words keeps the canonical form, and the rest is as after reset. -/
theorem loadedImageMeetsTheInvariant : Obligations.LoadedImageMeetsTheInvariant := fun _ _ _ =>
  invariant_of_running_of_no_slot (Memory.wf_placeWords Memory.wf_nil _ _) (fun _ => rfl) rfl rfl

/-- Settles O50: by induction on the image, for its words and for the bytes past it. -/
theorem loadPlacesTheImage : Obligations.LoadPlacesTheImage := by
  intro r0 after image hlen s
  obtain ⟨hmem, hconfig⟩ := load_of_fits hlen r0 after
  refine ⟨fun k hk => ?_, fun b hb => ?_, readReg_of_gpr_eq_zeros rfl, rfl, rfl, rfl, fun a => ?_⟩
  · have h := placeWords_read32 [] 0 image (by omega) k hk
    rwa [Nat.zero_add, ← hmem] at h
  · rw [hmem, placeWords_read_outside _ _ _ (by omega) (by omega)]
    rfl
  · simp [State.inFetchWindow, s, hconfig, addrInRange]

/-- Settles O55: the step under `R0_WRITABLE = true` commutes with hard-wiring index 0. -/
theorem registerZeroParameterIrrelevant : Obligations.RegisterZeroParameterIrrelevant := by
  intro s t h0 h ht
  exact step_hardwired (s := withR0Writable s true) h0 h ht

/-- Settles O48: memory is empty, index 0 holds 0, and nothing is pending. -/
theorem resetMeetsTheInvariant : Obligations.ResetMeetsTheInvariant :=
  invariant_of_running_of_no_slot Memory.wf_nil (fun _ => rfl) rfl rfl

end Sys2Proof.Proofs
end

section
/-! PROOFS of the family 20_memory.md, part 1. Wide accesses as numbers: a wide read is its bytes, and a narrow write
changes its own digits of the word around it (20_memory.md R43, R57). -/

namespace Sys2Proof.Machine

/-! ## Reads -/

theorem Memory.read16_toNat (m : Memory) (a : Word) :
    (m.read16 a).toNat = (m.read8 a).toNat * 2 ^ 8 + (m.read8 (a + 1)).toNat :=
  toNat_append_add _ _

theorem wordOfBytes_toNat (b0 b1 b2 b3 : Byte) :
    (wordOfBytes b0 b1 b2 b3).toNat = b0.toNat * 2 ^ 24 + b1.toNat * 2 ^ 16 + b2.toNat * 2 ^ 8 + b3.toNat := by
  show (b0 ++ b1 ++ b2 ++ b3).toNat = _
  simp only [toNat_append_add]
  omega

theorem Memory.read32_toNat (m : Memory) (a : Word) :
    (m.read32 a).toNat = (m.read8 a).toNat * 2 ^ 24 + (m.read8 (a + 1)).toNat * 2 ^ 16
      + (m.read8 (a + 2)).toNat * 2 ^ 8 + (m.read8 (a + 3)).toNat :=
  wordOfBytes_toNat _ _ _ _

/-- A word is its two halfwords, the first the more significant. -/
theorem Memory.read32_toNat_halves (m : Memory) (a : Word) :
    (m.read32 a).toNat = (m.read16 a).toNat * 2 ^ 16 + (m.read16 (a + 2)).toNat := by
  have hlast : a + 2 + 1 = a + 3 := BitVec.add_assoc a 2 1
  rw [Memory.read32_toNat, Memory.read16_toNat, Memory.read16_toNat, hlast]
  omega

/-! ## Writes -/

/-- A byte of a value as a number: the digit in base 256 that starts at bit `lo`. -/
theorem byteAt_toNat {n : Nat} (v : BitVec n) (lo : Nat) :
    (v.extractLsb' lo 8).toNat = v.toNat / 2 ^ lo % 2 ^ 8 := by
  rw [BitVec.extractLsb'_toNat, Nat.shiftRight_eq_div_pow]

theorem Memory.write16_bytes (m : Memory) (a : Word) (v : BitVec 16) :
    ((m.write16 a v).read8 a).toNat = v.toNat / 2 ^ 8 ∧
    ((m.write16 a v).read8 (a + 1)).toNat = v.toNat % 2 ^ 8 := by
  have b0 : (m.write16 a v).read8 a = v.extractLsb' 8 8 := by simp [Memory.read8_write16]
  have b1 : (m.write16 a v).read8 (a + 1) = v.extractLsb' 0 8 := by simp [Memory.read8_write16]
  rw [b0, b1, byteAt_toNat, byteAt_toNat]
  omega

theorem Memory.write32_bytes (m : Memory) (a : Word) (v : BitVec 32) :
    ((m.write32 a v).read8 a).toNat = v.toNat / 2 ^ 24 ∧
    ((m.write32 a v).read8 (a + 1)).toNat = v.toNat / 2 ^ 16 % 2 ^ 8 ∧
    ((m.write32 a v).read8 (a + 2)).toNat = v.toNat / 2 ^ 8 % 2 ^ 8 ∧
    ((m.write32 a v).read8 (a + 3)).toNat = v.toNat % 2 ^ 8 := by
  have b0 : (m.write32 a v).read8 a = v.extractLsb' 24 8 := by simp [Memory.read8_write32]
  have b1 : (m.write32 a v).read8 (a + 1) = v.extractLsb' 16 8 := by simp [Memory.read8_write32]
  have b2 : (m.write32 a v).read8 (a + 2) = v.extractLsb' 8 8 := by simp [Memory.read8_write32]
  have b3 : (m.write32 a v).read8 (a + 3) = v.extractLsb' 0 8 := by simp [Memory.read8_write32]
  rw [b0, b1, b2, b3, byteAt_toNat, byteAt_toNat, byteAt_toNat, byteAt_toNat]
  omega

/-! ## Narrow writes into a word -/

theorem Memory.read16_write16 (m : Memory) (a : Word) (h : BitVec 16) : (m.write16 a h).read16 a = h := by
  obtain ⟨hi, lo⟩ := m.write16_bytes a h
  apply BitVec.eq_of_toNat_eq
  rw [Memory.read16_toNat, hi, lo]
  omega

theorem Memory.read16_write16_of_ne (m : Memory) {a c : Word} (h : BitVec 16) (h0 : c ≠ a) (h1 : c ≠ a + 1)
    (h2 : c + 1 ≠ a) : (m.write16 a h).read16 c = m.read16 c := by
  have h3 : c + 1 ≠ a + 1 := fun e => h0 (by bv_omega)
  rw [Memory.read16, Memory.read16, Memory.read8_write16, Memory.read8_write16, if_neg h1, if_neg h0, if_neg h3,
    if_neg h2]

theorem Memory.read32_write16_high (m : Memory) (a : Word) (h : BitVec 16) :
    ((m.write16 a h).read32 a).toNat = h.toNat * 2 ^ 16 + (m.read32 a).toNat % 2 ^ 16 := by
  have keep : (m.write16 a h).read16 (a + 2) = m.read16 (a + 2) :=
    m.read16_write16_of_ne h (by bv_omega) (by bv_omega) (by bv_omega)
  rw [Memory.read32_toNat_halves, Memory.read32_toNat_halves, Memory.read16_write16, keep]
  omega

theorem Memory.read32_write16_low (m : Memory) (a : Word) (h : BitVec 16) :
    ((m.write16 (a + 2) h).read32 a).toNat = (m.read32 a).toNat / 2 ^ 16 * 2 ^ 16 + h.toNat := by
  have keep : (m.write16 (a + 2) h).read16 a = m.read16 a :=
    m.read16_write16_of_ne h (by bv_omega) (by bv_omega) (by bv_omega)
  rw [Memory.read32_toNat_halves, Memory.read32_toNat_halves, Memory.read16_write16, keep]
  omega

theorem Memory.read32_write8_last (m : Memory) (a : Word) (b : BitVec 8) :
    ((m.write8 (a + 3) b).read32 a).toNat = (m.read32 a).toNat / 2 ^ 8 * 2 ^ 8 + b.toNat := by
  have bytes : (m.write8 (a + 3) b).read32 a = wordOfBytes (m.read8 a) (m.read8 (a + 1)) (m.read8 (a + 2)) b := by
    simp [Memory.read32, Memory.read8_write8]
  rw [bytes, wordOfBytes_toNat, Memory.read32_toNat]
  omega

theorem Memory.read32_write8_first (m : Memory) (a : Word) (b : BitVec 8) :
    ((m.write8 a b).read32 a).toNat = b.toNat * 2 ^ 24 + (m.read32 a).toNat % 2 ^ 24 := by
  have bytes : (m.write8 a b).read32 a = wordOfBytes b (m.read8 (a + 1)) (m.read8 (a + 2)) (m.read8 (a + 3)) := by
    simp [Memory.read32, Memory.read8_write8]
  rw [bytes, wordOfBytes_toNat, Memory.read32_toNat]
  omega

end Sys2Proof.Machine
end

section
/-! PROOFS of the family 20_memory.md, part 2. A canonical memory lists exactly the bytes that read as something else
than an unlisted address does, so its reads determine it (20_memory.md R40, R48). -/

namespace Sys2Proof.Machine

theorem Memory.read_of_mem {m : Memory} (hm : m.Pairwise fun c d => c.1 < d.1) {c : Host.Cell} (hc : c ∈ m) :
    m.read c.1 = c.2 := by
  induction m with
  | nil => cases hc
  | cons d m ih =>
    obtain ⟨hd, hm⟩ := List.pairwise_cons.mp hm
    rcases List.mem_cons.mp hc with rfl | hc
    · exact if_pos rfl
    · exact (if_neg (hd c hc).ne).trans (ih hm hc)

theorem Memory.mem_of_read {m : Memory} {a : Nat} (h : m.read a ≠ unlistedByte) : (a, m.read a) ∈ m := by
  induction m with
  | nil => exact absurd rfl h
  | cons d m ih =>
    obtain ⟨k, v⟩ := d
    unfold Memory.read at h ⊢
    split
    · rename_i hk
      simp [hk]
    · rename_i hk
      rw [if_neg hk] at h
      exact List.mem_cons_of_mem _ (ih h)

/-- A listed byte reads as what it is, so every memory that reads alike lists it too. -/
theorem Memory.mem_of_reads_alike {m m' : Memory} (hm : m.wf) (h : ∀ a < 2 ^ 32, m.read a = m'.read a)
    {c : Host.Cell} (hc : c ∈ m) : c ∈ m' := by
  obtain ⟨hsorted, hcells⟩ := hm
  obtain ⟨hlt, hne⟩ := hcells c hc
  have hread : m'.read c.1 = c.2 := (h c.1 hlt).symm.trans (Memory.read_of_mem hsorted hc)
  have hmem := Memory.mem_of_read (m := m') (a := c.1) (hread ▸ hne)
  rwa [hread] at hmem

end Sys2Proof.Machine
end

section
/-! PROOFS of the family 20_memory.md, part 3. The admission of a fetch (20_memory.md R46), and the memory a `sw` leaves
to it (R54). -/

namespace Sys2Proof.Machine

variable {s : State}

theorem inFetchWindow_iff (a : Word) :
    s.inFetchWindow a = true ↔ ∃ r ∈ s.config.fetchWindow, r.lo ≤ a.toNat ∧ a.toNat < r.hi := by
  simp [State.inFetchWindow, addrInRange]

theorem fetch_of_misaligned (h : s.pc.toNat % 4 ≠ 0) : s.fetch = .error (.fault .fetchMisaligned s.pc) := by
  rcases fetch_cases s with ⟨-, e⟩ | ⟨ha, -⟩ | ⟨hf, -⟩
  · exact e
  · exact absurd ha h
  · exact absurd hf.1 h

theorem fetch_of_outside (ha : s.pc.toNat % 4 = 0) (hw : s.inFetchWindow s.pc ≠ true) :
    s.fetch = .error (.fault .fetchOutOfRange s.pc) := by
  rcases fetch_cases s with ⟨hn, -⟩ | ⟨-, -, e⟩ | ⟨hf, -⟩
  · exact absurd ha hn
  · exact e
  · exact absurd hf.2 hw

/-- A `sw` that goes on was aligned, and left its word in memory. -/
theorem execSw_running {t : State} {rt rs : Reg} {imm : BitVec 16} (h : execSw rt rs imm s = .next t)
    (ht : t.run = .running) : t.mem = s.mem.write32 (s.effectiveAddress rs imm) (s.readReg rt) := by
  unfold execSw at h
  dsimp only at h
  split at h
  · rw [storeBack_next h, State.setMem_mem]
  · rw [dataMisaligned_next h] at ht
    cases ht

end Sys2Proof.Machine
end

section
/-! PROOFS of the family 20_memory.md, part 4. The obligations. -/

namespace Sys2Proof.Proofs

open Sys2Proof.Machine Sys2Proof.Safety

/-- Settles O10: the word as two halfwords or four bytes, of which each store replaces its own. -/
theorem mixedWidthAccessesShareBytes : Obligations.MixedWidthAccessesShareBytes := by
  intro m a v h b
  have word : (m.write32 a v).read32 a = v := Memory.read32_write32 m a v
  have halves := (m.write32 a v).read32_toNat_halves a
  have low := ((m.write32 a v).read16 (a + 2)).isLt
  rw [word] at halves
  refine ⟨word, ?_, ?_, ?_, ?_, ?_, ?_⟩
  · omega
  · omega
  · rw [Memory.read32_write16_high, word]
  · rw [Memory.read32_write16_low, word]
  · rw [Memory.read32_write8_last, word]
  · rw [Memory.read32_write8_first, word]

/-- Settles O11: each memory lists the cells of the other, and both list them by rising address. -/
theorem equalReadsMeanEqualMemories : Obligations.EqualReadsMeanEqualMemories := by
  intro m m' hm hm' h
  have : Std.Irrefl fun c d : Host.Cell => c.1 < d.1 := ⟨fun c => lt_irrefl c.1⟩
  have : Std.Asymm fun c d : Host.Cell => c.1 < d.1 := ⟨fun c d => lt_asymm⟩
  exact hm.1.eq_of_mem_iff hm'.1 fun c =>
    ⟨Memory.mem_of_reads_alike hm h, Memory.mem_of_reads_alike hm' fun a ha => (h a ha).symm⟩

/-- Settles O43: by the effects of a step; of them the store alone replaces the memory. -/
theorem onlyStoresChangeMemory : Obligations.OnlyStoresChangeMemory := by
  intro s t b hst hout
  obtain ⟨-, he⟩ := step_effect hst
  cases he with
  | fetchFault | illegal | halt | misaligned | controlInSlot | issue => rfl
  | write => simp
  | store _ hi ha _ hm =>
    rw [retire_mem, State.setMem_mem]
    exact hm b (hout _ _ _ hi ha)

/-- Settles O9: reads by their bytes, writes byte by byte. -/
theorem accessesAreBigEndian : Obligations.AccessesAreBigEndian := by
  refine ⟨fun m a => ⟨m.read16_toNat a, m.read32_toNat a⟩, fun m a v => ?_, fun m a v => ?_⟩
  · obtain ⟨b0, b1⟩ := m.write16_bytes a v
    exact ⟨b0, b1, fun b hb => read_write16_outside m a v hb⟩
  · obtain ⟨b0, b1, b2, b3⟩ := m.write32_bytes a v
    exact ⟨b0, b1, b2, b3, fun b hb => read_write32_outside m a v hb⟩

/-- Settles O27: the alignment check fails, and each of the four then takes the one misaligned stop. -/
theorem misalignedAccessesStop : Obligations.MisalignedAccessesStop := by
  intro rt rs imm s a stopped
  refine ⟨fun h => ?_, fun h => ?_⟩
  · have hn : ¬ aligned2 a = true := mt (aligned2_iff a).mp h
    exact ⟨if_neg hn, if_neg hn⟩
  · have hn : ¬ aligned4 a = true := mt (aligned4_iff a).mp h
    exact ⟨if_neg hn, if_neg hn⟩

/-- Settles O36: the fetch meets the one fault, then the other, and a step stops with the fault its fetch meets. -/
theorem fetchIsAdmittedInOrder : Obligations.FetchIsAdmittedInOrder := by
  intro s hr
  refine ⟨fun h => step_of_fetch_error hr (fetch_of_misaligned h), fun ha hw => ?_⟩
  have hout : s.inFetchWindow s.pc ≠ true := fun e =>
    let ⟨r, hmem, hin⟩ := (inFetchWindow_iff s.pc).mp e
    hw r hmem hin
  exact step_of_fetch_error hr (fetch_of_outside ha hout)

/-- Settles O58: the store went on, so its word is in memory, and the fetch reads it back. -/
theorem storeIsSeenByTheFetch : Obligations.StoreIsSeenByTheFetch := by
  intro s t u rt rs imm h ht _ hmem hpc hf
  rw [fetch_of_FW hf, hmem, hpc, execSw_running h ht, Memory.read32_write32]

end Sys2Proof.Proofs
end

section
/-! PROOFS of the family 30_encoding.md, part 1. The eight fields: which numbers they are (30_encoding.md R64), that the
fields of a format rebuild the word, and that a word of a format gives its fields back (R65). -/

namespace Sys2Proof

/-! ## Each field as a number (R64) -/

section FieldsAsNumbers
variable (w : Word)

theorem decodeFields_opcode_toNat : (decodeFields w).opcode.toNat = w.toNat / 2 ^ 26 := by
  have := w.isLt
  rw [decodeFields, BitVec.extractLsb'_toNat, Nat.shiftRight_eq_div_pow]
  omega

theorem decodeFields_rs_toNat : (decodeFields w).rs.toNat = w.toNat / 2 ^ 21 % 2 ^ 5 := by
  rw [decodeFields, BitVec.extractLsb'_toNat, Nat.shiftRight_eq_div_pow]

theorem decodeFields_rt_toNat : (decodeFields w).rt.toNat = w.toNat / 2 ^ 16 % 2 ^ 5 := by
  rw [decodeFields, BitVec.extractLsb'_toNat, Nat.shiftRight_eq_div_pow]

theorem decodeFields_rd_toNat : (decodeFields w).rd.toNat = w.toNat / 2 ^ 11 % 2 ^ 5 := by
  rw [decodeFields, BitVec.extractLsb'_toNat, Nat.shiftRight_eq_div_pow]

theorem decodeFields_shamt_toNat : (decodeFields w).shamt.toNat = w.toNat / 2 ^ 6 % 2 ^ 5 := by
  rw [decodeFields, BitVec.extractLsb'_toNat, Nat.shiftRight_eq_div_pow]

theorem decodeFields_funct_toNat : (decodeFields w).funct.toNat = w.toNat % 2 ^ 6 := by
  rw [decodeFields, BitVec.extractLsb'_toNat, Nat.shiftRight_zero]

theorem decodeFields_imm_toNat : (decodeFields w).imm.toNat = w.toNat % 2 ^ 16 := by
  rw [decodeFields, BitVec.extractLsb'_toNat, Nat.shiftRight_zero]

theorem decodeFields_address_toNat : (decodeFields w).address.toNat = w.toNat % 2 ^ 26 := by
  rw [decodeFields, BitVec.extractLsb'_toNat, Nat.shiftRight_zero]

/-! ## The fields of a format rebuild the word (R65) -/

theorem encodeR_decodeFields : encodeR (decodeFields w).opcode (decodeFields w).rs (decodeFields w).rt
    (decodeFields w).rd (decodeFields w).shamt (decodeFields w).funct = w := by
  apply BitVec.eq_of_toNat_eq
  rw [encodeR_toNat, decodeFields_opcode_toNat, decodeFields_rs_toNat, decodeFields_rt_toNat,
    decodeFields_rd_toNat, decodeFields_shamt_toNat, decodeFields_funct_toNat]
  omega

theorem encodeI_decodeFields :
    encodeI (decodeFields w).opcode (decodeFields w).rs (decodeFields w).rt (decodeFields w).imm = w := by
  apply BitVec.eq_of_toNat_eq
  rw [encodeI_toNat, decodeFields_opcode_toNat, decodeFields_rs_toNat, decodeFields_rt_toNat,
    decodeFields_imm_toNat]
  omega

theorem encodeJ_decodeFields : encodeJ (decodeFields w).opcode (decodeFields w).address = w := by
  apply BitVec.eq_of_toNat_eq
  rw [encodeJ_toNat, decodeFields_opcode_toNat, decodeFields_address_toNat]
  omega

end FieldsAsNumbers

/-! ## A word of a format gives its fields back (R65) -/

theorem decodeFields_encodeR (op : BitVec 6) (rs rt rd sh : BitVec 5) (fn : BitVec 6) :
    decodeFields (encodeR op rs rt rd sh fn)
      = ⟨op, rs, rt, rd, sh, fn, rd ++ sh ++ fn, rs ++ rt ++ rd ++ sh ++ fn⟩ := by
  simp only [decodeFields, Fields.mk.injEq, ← BitVec.toNat_inj, BitVec.extractLsb'_toNat,
    Nat.shiftRight_eq_div_pow, encodeR_toNat, toNat_append_add]
  refine ⟨?_, ?_, ?_, ?_, ?_, ?_, ?_, ?_⟩ <;> omega

theorem decodeFields_encodeI (op : BitVec 6) (rs rt : BitVec 5) (imm : BitVec 16) :
    decodeFields (encodeI op rs rt imm)
      = ⟨op, rs, rt, imm.extractLsb' 11 5, imm.extractLsb' 6 5, imm.extractLsb' 0 6, imm, rs ++ rt ++ imm⟩ := by
  simp only [decodeFields, Fields.mk.injEq, ← BitVec.toNat_inj, BitVec.extractLsb'_toNat,
    Nat.shiftRight_eq_div_pow, encodeI_toNat, toNat_append_add]
  refine ⟨?_, ?_, ?_, ?_, ?_, ?_, ?_, ?_⟩ <;> omega

theorem decodeFields_encodeJ (op : BitVec 6) (address : BitVec 26) :
    decodeFields (encodeJ op address)
      = ⟨op, address.extractLsb' 21 5, address.extractLsb' 16 5, address.extractLsb' 11 5, address.extractLsb' 6 5,
          address.extractLsb' 0 6, address.extractLsb' 0 16, address⟩ := by
  simp only [decodeFields, Fields.mk.injEq, ← BitVec.toNat_inj, BitVec.extractLsb'_toNat,
    Nat.shiftRight_eq_div_pow, encodeJ_toNat]
  refine ⟨?_, ?_, ?_, ?_, ?_, ?_, ?_, ?_⟩ <;> omega

end Sys2Proof
end

section
/-! PROOFS of the family 30_encoding.md, part 2. The decoder by its dispatch (40_cycle.md R83): what a word that is not
the sentinel decodes to, and what the encoded formats decode to. -/

namespace Sys2Proof

variable {w : Word} {i : Instr} {build : Fields → Instr}

/-! ## Decoding by dispatch -/

/-- What the opcode and the funct of a word select (R83). -/
def dispatchOf (w : Word) : Option (Fields → Instr) := dispatch (decodeFields w).opcode (decodeFields w).funct

/-- The sentinel's opcode is none of R68: no instruction shares its word (30_encoding.md R70). -/
theorem dispatchOf_sentinel : dispatchOf sentinel = none := rfl

theorem dispatchOf_of_opcode_zero (h : (decodeFields w).opcode = 0#6) :
    dispatchOf w = dispatchFunct (decodeFields w).funct := if_pos h

theorem dispatchOf_of_opcode_ne_zero (h : (decodeFields w).opcode ≠ 0#6) :
    dispatchOf w = dispatchOpcode (decodeFields w).opcode := if_neg h

theorem decodeWord_of_dispatchOf (h : dispatchOf w = some build) : decodeWord w = .ok (build (decodeFields w)) := by
  have hw : w ≠ sentinel := by
    rintro rfl
    cases dispatchOf_sentinel.symm.trans h
  unfold decodeWord
  unfold dispatchOf at h
  simp only [if_neg hw, h]

/-- The three things a word can be (30_encoding.md R72): the sentinel, an instruction its dispatch builds, or
illegal. -/
theorem decodeWord_cases (w : Word) :
    (w = sentinel ∧ decodeWord w = .ok .halt) ∨
    (∃ build, w ≠ sentinel ∧ dispatchOf w = some build ∧ decodeWord w = .ok (build (decodeFields w))) ∨
    (w ≠ sentinel ∧ dispatchOf w = none ∧ ∃ e, decodeWord w = .error e) := by
  by_cases hw : w = sentinel
  · exact .inl ⟨hw, if_pos hw⟩
  · cases h : dispatchOf w with
    | some build => exact .inr (.inl ⟨build, hw, rfl, decodeWord_of_dispatchOf h⟩)
    | none =>
      refine .inr (.inr ⟨hw, rfl, ?_⟩)
      unfold decodeWord
      unfold dispatchOf at h
      simp only [if_neg hw, h]
      exact ⟨_, rfl⟩

theorem decodeWord_error_iff : (∃ e, decodeWord w = .error e) ↔ w ≠ sentinel ∧ dispatchOf w = none := by
  rcases decodeWord_cases w with ⟨hw, hd⟩ | ⟨build, -, hb, hd⟩ | ⟨hw, hb, he⟩
  · simp [hw, hw ▸ hd]
  · simp [hb, hd]
  · exact iff_of_true he ⟨hw, hb⟩

/-! ## Decoding a word of a format -/

theorem decodeWord_encodeR {rs rt rd sh : BitVec 5} {fn : BitVec 6} (h : dispatchFunct fn = some build) :
    decodeWord (encodeR 0#6 rs rt rd sh fn)
      = .ok (build ⟨0#6, rs, rt, rd, sh, fn, rd ++ sh ++ fn, rs ++ rt ++ rd ++ sh ++ fn⟩) := by
  rw [← decodeFields_encodeR]
  apply decodeWord_of_dispatchOf
  rw [dispatchOf, decodeFields_encodeR]
  exact h

theorem decodeWord_encodeI {op : BitVec 6} {rs rt : BitVec 5} {imm : BitVec 16} (hop : op ≠ 0#6)
    (h : dispatchOpcode op = some build) :
    decodeWord (encodeI op rs rt imm)
      = .ok (build ⟨op, rs, rt, imm.extractLsb' 11 5, imm.extractLsb' 6 5, imm.extractLsb' 0 6, imm,
          rs ++ rt ++ imm⟩) := by
  rw [← decodeFields_encodeI]
  apply decodeWord_of_dispatchOf
  rw [dispatchOf, decodeFields_encodeI]
  exact (if_neg hop).trans h

theorem decodeWord_encodeJ {op : BitVec 6} {address : BitVec 26} (hop : op ≠ 0#6)
    (h : dispatchOpcode op = some build) :
    decodeWord (encodeJ op address) = .ok (build (decodeFields (encodeJ op address))) := by
  apply decodeWord_of_dispatchOf
  rw [dispatchOf, decodeFields_encodeJ]
  exact (if_neg hop).trans h

/-- A well-formed shift amount survives its five bits (30_encoding.md R66). -/
theorem toNat_ofNat_of_shamtFits {n : Nat} (h : shamtFits n = true) : (BitVec.ofNat 5 n).toNat = n :=
  (BitVec.toNat_ofNat n 5).trans (Nat.mod_eq_of_lt (of_decide_eq_true h))

/-- Encoding, then decoding, by the format of the instruction. -/
theorem decodeWord_encode (h : i.wf = true) : decodeWord (encode i) = .ok i := by
  cases i with
  | sll rd rt shamt | srl rd rt shamt =>
    refine (decodeWord_encodeR rfl).trans ?_
    simp only [toNat_ofNat_of_shamtFits h]
    rfl
  | add | addu | sub | subu | and | or | nor | slt | sltu | jr => exact (decodeWord_encodeR rfl).trans rfl
  | addi | addiu | slti | sltiu | andi | ori | lui | lw | lbu | lhu | sb | sh | sw | beq | bne | blez | bgtz =>
    exact (decodeWord_encodeI (by decide) rfl).trans rfl
  | j address | jal address =>
    refine (decodeWord_encodeJ (by decide) rfl).trans ?_
    rw [decodeFields_encodeJ]
  | halt => rfl

theorem decode_bytesOfWord (w : Word) (rest : List Byte) :
    decode (bytesOfWord w ++ rest) = (decodeWord w).map fun i => (i, rest) := by
  show (decodeWord (wordOfBytes _ _ _ _)).map (fun i => (i, rest)) = _
  rw [Machine.wordOfBytes_extract]

end Sys2Proof
end

section
/-! PROOFS of the family 30_encoding.md, part 3. Don't-care fields (30_encoding.md R67, R74): the mask of the bits an
instruction reads, as zeros in the fields it does not read. -/

namespace Sys2Proof

open Sys2Proof.Safety

/-! ## Masks field by field -/

theorem encodeR_and (op op' : BitVec 6) (rs rt rd sh rs' rt' rd' sh' : BitVec 5) (fn fn' : BitVec 6) :
    encodeR op rs rt rd sh fn &&& encodeR op' rs' rt' rd' sh' fn'
      = encodeR (op &&& op') (rs &&& rs') (rt &&& rt') (rd &&& rd') (sh &&& sh') (fn &&& fn') := by
  show (op ++ rs ++ rt ++ rd ++ sh ++ fn) &&& (op' ++ rs' ++ rt' ++ rd' ++ sh' ++ fn') = _
  simp only [BitVec.and_append]
  rfl

theorem encodeI_and (op op' : BitVec 6) (rs rt rs' rt' : BitVec 5) (imm imm' : BitVec 16) :
    encodeI op rs rt imm &&& encodeI op' rs' rt' imm'
      = encodeI (op &&& op') (rs &&& rs') (rt &&& rt') (imm &&& imm') := by
  show (op ++ rs ++ rt ++ imm) &&& (op' ++ rs' ++ rt' ++ imm') = _
  simp only [BitVec.and_append]
  rfl

section
variable (op : BitVec 6) (rs rt rd sh : BitVec 5) (fn : BitVec 6) (imm : BitVec 16)

/-- A shift does not read rs. -/
theorem encodeR_and_without_rs : encodeR op rs rt rd sh fn &&& 0xFC1FFFFF#32 = encodeR op 0#5 rt rd sh fn := by
  have mask : 0xFC1FFFFF#32 = encodeR (BitVec.allOnes 6) 0#5 (BitVec.allOnes 5) (BitVec.allOnes 5) (BitVec.allOnes 5)
    (BitVec.allOnes 6) := by decide
  simp only [mask, encodeR_and, BitVec.and_allOnes, BitVec.and_zero]

/-- A three-register instruction does not read shamt. -/
theorem encodeR_and_without_shamt : encodeR op rs rt rd sh fn &&& 0xFFFFF83F#32 = encodeR op rs rt rd 0#5 fn := by
  have mask : 0xFFFFF83F#32 = encodeR (BitVec.allOnes 6) (BitVec.allOnes 5) (BitVec.allOnes 5) (BitVec.allOnes 5) 0#5
    (BitVec.allOnes 6) := by decide
  simp only [mask, encodeR_and, BitVec.and_allOnes, BitVec.and_zero]

/-- `jr` reads no field but rs. -/
theorem encodeR_and_only_rs : encodeR op rs rt rd sh fn &&& 0xFFE0003F#32 = encodeR op rs 0#5 0#5 0#5 fn := by
  have mask : 0xFFE0003F#32 = encodeR (BitVec.allOnes 6) (BitVec.allOnes 5) 0#5 0#5 0#5 (BitVec.allOnes 6) := by decide
  simp only [mask, encodeR_and, BitVec.and_allOnes, BitVec.and_zero]

/-- `lui` does not read rs. -/
theorem encodeI_and_without_rs : encodeI op rs rt imm &&& 0xFC1FFFFF#32 = encodeI op 0#5 rt imm := by
  have mask : 0xFC1FFFFF#32 = encodeI (BitVec.allOnes 6) 0#5 (BitVec.allOnes 5) (BitVec.allOnes 16) := by decide
  simp only [mask, encodeI_and, BitVec.and_allOnes, BitVec.and_zero]

/-- `blez` and `bgtz` do not read rt. -/
theorem encodeI_and_without_rt : encodeI op rs rt imm &&& 0xFFE0FFFF#32 = encodeI op rs 0#5 imm := by
  have mask : 0xFFE0FFFF#32 = encodeI (BitVec.allOnes 6) (BitVec.allOnes 5) 0#5 (BitVec.allOnes 16) := by decide
  simp only [mask, encodeI_and, BitVec.and_allOnes, BitVec.and_zero]

end

/-! ## Encoding what was decoded -/

variable {w : Word} {build : Fields → Instr}

/-- The instruction is well-formed, and its word is `w` with its don't-care fields zero. -/
def EncodesBack (i : Instr) (w : Word) : Prop := i.wf = true ∧ encode i = w &&& usedBits i

theorem encodeShift_of_fields (rd rt sh : BitVec 5) (fn : BitVec 6) :
    encodeShift (regOfField rd) (regOfField rt) sh.toNat fn = encodeR 0#6 0#5 rt rd sh fn := by
  rw [encodeShift, BitVec.ofNat_toNat, BitVec.setWidth_eq]
  rfl

/-- The rows of R69 in their order, by what they read: the two shifts, `jr`, the three-register instructions. -/
theorem encodesBack_of_dispatchFunct {fn : BitVec 6} (h : dispatchFunct fn = some build) (f : Fields) :
    EncodesBack (build f) (encodeR 0#6 f.rs f.rt f.rd f.shamt fn) := by
  unfold dispatchFunct at h
  split at h <;> cases h
  case h_1 | h_2 =>
    exact ⟨decide_eq_true f.shamt.isLt, (encodeShift_of_fields ..).trans (encodeR_and_without_rs ..).symm⟩
  case h_3 => exact ⟨rfl, (encodeR_and_only_rs ..).symm⟩
  all_goals exact ⟨rfl, (encodeR_and_without_shamt ..).symm⟩

/-- The rows of R68 by what they read: the J format, `blez` and `bgtz`, `lui`, and those that read every bit. -/
theorem encodesBack_of_dispatchOpcode {op : BitVec 6} (h : dispatchOpcode op = some build) (w : Word)
    (hop : (decodeFields w).opcode = op) : EncodesBack (build (decodeFields w)) w := by
  unfold dispatchOpcode at h
  have hI := encodeI_decodeFields w
  have hJ := encodeJ_decodeFields w
  have hw : w &&& 0xFFFFFFFF#32 = w := BitVec.and_allOnes
  rw [hop] at hI hJ
  split at h <;> cases h
  case h_1 | h_2 => exact ⟨rfl, hJ.trans hw.symm⟩
  case h_5 | h_6 => exact ⟨rfl, (encodeI_and_without_rt ..).symm.trans (congrArg (· &&& 0xFFE0FFFF#32) hI)⟩
  case h_13 => exact ⟨rfl, (encodeI_and_without_rs ..).symm.trans (congrArg (· &&& 0xFC1FFFFF#32) hI)⟩
  all_goals exact ⟨rfl, hI.trans hw.symm⟩

theorem encodesBack_of_decodeWord {i : Instr} (h : decodeWord w = .ok i) : EncodesBack i w := by
  rcases decodeWord_cases w with ⟨hw, hd⟩ | ⟨build, -, hb, hd⟩ | ⟨-, -, e, hd⟩
  · cases h.symm.trans hd
    exact ⟨rfl, hw.symm.trans BitVec.and_allOnes.symm⟩
  · cases h.symm.trans hd
    by_cases h0 : (decodeFields w).opcode = 0#6
    · rw [dispatchOf_of_opcode_zero h0] at hb
      have hback := encodesBack_of_dispatchFunct hb (decodeFields w)
      rwa [← h0, encodeR_decodeFields] at hback
    · rw [dispatchOf_of_opcode_ne_zero h0] at hb
      exact encodesBack_of_dispatchOpcode hb w rfl
  · cases h.symm.trans hd

end Sys2Proof
end

section
/-! PROOFS of the family 30_encoding.md, part 4. Which operation a word is: by dispatch, by R71's lists of what dispatch
does not know, and by the rows of the opcode table. -/

namespace Sys2Proof

open Sys2Proof.Safety

variable {w : Word}

/-! ## The operation, without its operands -/

/-- The mnemonic of what a dispatch row builds; the fields it is built from do not matter (`mnemonic_of_dispatchOf`). -/
def rowName (build : Fields → Instr) : String := (build (decodeFields 0#32)).mnemonic

theorem mnemonic_of_dispatchFunct {funct : BitVec 6} {build : Fields → Instr} (h : dispatchFunct funct = some build)
    (f : Fields) : (build f).mnemonic = rowName build := by
  unfold dispatchFunct at h
  split at h <;> cases h <;> rfl

theorem mnemonic_of_dispatchOpcode {opcode : BitVec 6} {build : Fields → Instr}
    (h : dispatchOpcode opcode = some build) (f : Fields) : (build f).mnemonic = rowName build := by
  unfold dispatchOpcode at h
  split at h <;> cases h <;> rfl

theorem mnemonic_of_dispatchOf {build : Fields → Instr} (h : dispatchOf w = some build) (f : Fields) :
    (build f).mnemonic = rowName build := by
  by_cases h0 : (decodeFields w).opcode = 0#6
  · exact mnemonic_of_dispatchFunct ((dispatchOf_of_opcode_zero h0).symm.trans h) f
  · exact mnemonic_of_dispatchOpcode ((dispatchOf_of_opcode_ne_zero h0).symm.trans h) f

theorem decodeWord_mnemonic (hw : w ≠ sentinel) :
    (decodeWord w).toOption.map Instr.mnemonic = (dispatchOf w).map rowName := by
  rcases decodeWord_cases w with ⟨h, -⟩ | ⟨build, -, hb, hd⟩ | ⟨-, hb, e, hd⟩
  · exact absurd h hw
  · rw [hd, hb]
    exact congrArg some (mnemonic_of_dispatchOf hb _)
  · rw [hd, hb]
    rfl

theorem opcodeAt_eq (w : Word) : opcodeAt w = (decodeFields w).opcode.toNat := (decodeFields_opcode_toNat w).symm

theorem functAt_eq (w : Word) : functAt w = (decodeFields w).funct.toNat := (decodeFields_funct_toNat w).symm

theorem opcodeAt_eq_zero : opcodeAt w = 0 ↔ (decodeFields w).opcode = 0#6 := by
  rw [opcodeAt_eq, ← BitVec.toNat_inj]
  rfl

theorem dispatchOf_congr {w' : Word} (hop : opcodeAt w = opcodeAt w')
    (hfn : opcodeAt w = 0 → functAt w = functAt w') : dispatchOf w = dispatchOf w' := by
  simp only [functAt_eq, BitVec.toNat_inj, opcodeAt_eq_zero] at hfn
  simp only [opcodeAt_eq, BitVec.toNat_inj] at hop
  by_cases h0 : (decodeFields w).opcode = 0#6
  · rw [dispatchOf, dispatchOf, hop, hfn h0]
  · rw [dispatchOf_of_opcode_ne_zero h0, dispatchOf_of_opcode_ne_zero (hop ▸ h0), hop]

/-! ## R71's lists are what dispatch does not know -/

theorem dispatchFunct_isNone : ∀ funct : BitVec 6,
    (dispatchFunct funct).isNone = decide (funct.toNat ∈ illegalFuncts) := by decide

theorem dispatchOpcode_isNone : ∀ opcode : BitVec 6, opcode ≠ 0#6 →
    (dispatchOpcode opcode).isNone = decide (opcode.toNat ∈ illegalOpcodes) := by decide

theorem dispatchOf_eq_none_iff :
    dispatchOf w = none ↔ opcodeAt w ∈ illegalOpcodes ∨ opcodeAt w = 0 ∧ functAt w ∈ illegalFuncts := by
  rw [← Option.isNone_iff_eq_none, opcodeAt_eq_zero, functAt_eq]
  by_cases h0 : (decodeFields w).opcode = 0#6
  · have legal : opcodeAt w ∉ illegalOpcodes := by
      rw [opcodeAt_eq_zero.mpr h0]
      decide
    rw [dispatchOf_of_opcode_zero h0, dispatchFunct_isNone, decide_eq_true_iff]
    simp only [legal, h0, false_or, true_and]
  · rw [dispatchOf_of_opcode_ne_zero h0, dispatchOpcode_isNone _ h0, decide_eq_true_iff, opcodeAt_eq]
    simp only [h0, false_and, or_false]

/-! ## The rows of the opcode table -/

/-- What the R mask keeps, as a word (30_encoding.md R67). -/
theorem and_maskR_eq (w : Word) :
    w &&& maskR = encodeR (decodeFields w).opcode 0#5 0#5 0#5 0#5 (decodeFields w).funct := by
  apply BitVec.eq_of_toNat_eq
  rw [and_maskR, encodeR_toNat, decodeFields_opcode_toNat, decodeFields_funct_toNat]
  simp

/-- What the I and J mask keeps, as a word (R67). -/
theorem and_maskI_eq (w : Word) : w &&& maskI = encodeJ (decodeFields w).opcode 0#26 := by
  apply BitVec.eq_of_toNat_eq
  rw [and_maskI, encodeJ_toNat, decodeFields_opcode_toNat]
  simp

/-- The mnemonics of the rows that have the given fixed bits. -/
def namesOf (rows : List TableRow) (bits : Word) : List String :=
  (rows.filter fun r => bits == r.bits).map fun r => r.mnemonic

theorem namesOf_tableRowsR : ∀ funct : BitVec 6,
    namesOf tableRowsR (encodeR 0#6 0#5 0#5 0#5 0#5 funct) = ((dispatchFunct funct).map rowName).toList := by decide

theorem namesOf_tableRowsI : ∀ opcode : BitVec 6, opcode ≠ 0#6 →
    namesOf tableRowsI (encodeJ opcode 0#26) = ((dispatchOpcode opcode).map rowName).toList := by decide

/-- No R row has another opcode than 0. -/
theorem namesOf_tableRowsR_of_opcode_ne_zero {opcode : BitVec 6} (h : opcode ≠ 0#6) (funct : BitVec 6) :
    namesOf tableRowsR (encodeR opcode 0#5 0#5 0#5 0#5 funct) = [] := by
  have hbits : ∀ r ∈ tableRowsR, (decodeFields r.bits).opcode = 0#6 := by decide
  rw [namesOf, List.map_eq_nil_iff, List.filter_eq_nil_iff]
  intro r hr heq
  apply h
  rw [← hbits r hr, ← beq_iff_eq.mp heq, decodeFields_encodeR]

/-- The R rows a word meets. -/
theorem tableRowsR_matching (w : Word) :
    (tableRowsR.filter fun r => r.matches w).map (fun r => r.mnemonic) = namesOf tableRowsR (w &&& maskR) := by
  have hmask : ∀ r ∈ tableRowsR, r.mask = maskR := by decide
  refine congrArg (List.map _) (List.filter_congr fun r hr => ?_)
  rw [TableRow.matches, hmask r hr]

/-- The other rows a word meets: the sentinel's row takes no other word, and no word under the I mask. -/
theorem tableRowsI_matching (hw : w ≠ sentinel) :
    (tableRowsI.filter fun r => r.matches w).map (fun r => r.mnemonic) = namesOf tableRowsI (w &&& maskI) := by
  have hmask : ∀ r ∈ tableRowsI, r.mask = maskI ∨ r = ⟨"halt", BitVec.allOnes 32, sentinel⟩ := by decide
  have hsent : ∀ opcode : BitVec 6, encodeJ opcode 0#26 ≠ sentinel := by decide
  refine congrArg (List.map _) (List.filter_congr fun r hr => ?_)
  rcases hmask r hr with h | rfl
  · rw [TableRow.matches, h]
  · rw [TableRow.matches, BitVec.and_allOnes, beq_false_of_ne hw, and_maskI_eq, beq_false_of_ne (hsent _)]

/-- The rows a word meets are the row of its dispatch. -/
theorem opcodeTable_matching (hw : w ≠ sentinel) :
    (opcodeTable.filter fun r => r.matches w).map (fun r => r.mnemonic) = ((dispatchOf w).map rowName).toList := by
  rw [opcodeTable, List.filter_append, List.map_append, tableRowsR_matching, tableRowsI_matching hw, and_maskR_eq,
    and_maskI_eq]
  by_cases h0 : (decodeFields w).opcode = 0#6
  · have noRow : namesOf tableRowsI (encodeJ 0#6 0#26) = [] := by decide
    rw [dispatchOf_of_opcode_zero h0, h0, namesOf_tableRowsR, noRow, List.append_nil]
  · rw [dispatchOf_of_opcode_ne_zero h0, namesOf_tableRowsI _ h0, namesOf_tableRowsR_of_opcode_ne_zero h0,
      List.nil_append]

end Sys2Proof
end

section
/-! PROOFS of the family 30_encoding.md, part 5. The obligations, and the register law the no-op rests on. -/

namespace Sys2Proof.Machine

/-- A register written with what it reads is as it was, under both settings of `R0_WRITABLE` (10_state.md R23). -/
theorem State.writeReg_readReg (s : State) (i : Reg) : s.writeReg i (s.readReg i) = s := by
  unfold State.writeReg State.readReg
  split
  · rfl
  · simp

end Sys2Proof.Machine

namespace Sys2Proof.Proofs

open Sys2Proof.Machine Sys2Proof.Safety

/-- Settles O3: by the format of the instruction, for the word and for its four bytes. -/
theorem encodeThenDecode : Obligations.EncodeThenDecode := by
  intro i hi
  refine ⟨decodeWord_encode hi, fun rest => ?_⟩
  rw [encodeBytes, decode_bytesOfWord, decodeWord_encode hi]
  rfl

/-- Settles O4: by the dispatch row that read the word, the mask of each row being zero in its don't-care fields. -/
theorem decodeThenEncode : Obligations.DecodeThenEncode := fun _ _ h => encodesBack_of_decodeWord h

/-- Settles O5: the sentinel meets its own row; any other word the row of its dispatch. -/
theorem everyWordHasItsTableRow : Obligations.EveryWordHasItsTableRow := by
  intro w
  by_cases hw : w = sentinel
  · subst hw
    decide
  · rw [opcodeTable_matching hw, ← decodeWord_mnemonic hw]
    cases decodeWord w <;> rfl

/-- Settles O6: equal opcodes and functs are dispatched alike, and the dispatch gives the operation. -/
theorem dispatchReadsOpcodeAndFunctOnly : Obligations.DispatchReadsOpcodeAndFunctOnly := by
  intro w w' hw hw' hop hfn
  rw [decodeWord_mnemonic hw, decodeWord_mnemonic hw', dispatchOf_congr hop hfn]

/-- Settles O7: a word that is not the sentinel is rejected when its dispatch fails, and R71 lists when that is. -/
theorem illegalWordsAreTheListedOnes : Obligations.IllegalWordsAreTheListedOnes := by
  refine ⟨fun w => ?_, by decide, by decide⟩
  rw [decodeWord_error_iff, dispatchOf_eq_none_iff]
  rfl

/-- Settles O1: each format's fields are disjoint bit ranges that cover the word. -/
theorem fieldsRebuildTheWord : Obligations.FieldsRebuildTheWord := by
  refine ⟨fun w => ⟨encodeR_decodeFields w, encodeI_decodeFields w, encodeJ_decodeFields w⟩,
    fun op rs rt rd sh fn => ?_, fun op rs rt imm => ?_, fun op address => ?_, fun w => ?_⟩
  · rw [decodeFields_encodeR]
    exact ⟨rfl, rfl, rfl, rfl, rfl, rfl⟩
  · rw [decodeFields_encodeI]
    exact ⟨rfl, rfl, rfl, rfl⟩
  · rw [decodeFields_encodeJ]
    exact ⟨rfl, rfl⟩
  · dsimp only
    rw [decodeFields_imm_toNat, decodeFields_address_toNat, decodeFields_rs_toNat, decodeFields_rt_toNat,
      decodeFields_rd_toNat, decodeFields_shamt_toNat, decodeFields_funct_toNat]
    omega

/-- Settles O2: the eight fields as numbers. -/
theorem decoderTakesEightFields : Obligations.DecoderTakesEightFields := fun w =>
  ⟨decodeFields_opcode_toNat w, decodeFields_rs_toNat w, decodeFields_rt_toNat w, decodeFields_rd_toNat w,
    decodeFields_shamt_toNat w, decodeFields_funct_toNat w, decodeFields_imm_toNat w, decodeFields_address_toNat w⟩

/-- Settles O8: ten words, decoded. -/
theorem writtenOutWordsDecode : Obligations.WrittenOutWordsDecode := by
  unfold Obligations.WrittenOutWordsDecode
  decide

/-- Settles O59: the zero word is `sll 0 0 0`, which writes register 0 with what it reads there. -/
theorem zeroWordIsTheNop : Obligations.ZeroWordIsTheNop := by
  intro s hr hs hf h0
  have hi : instrAt s = some (.sll 0 0 0) := instrAt_eq_some.mpr (h0 ▸ rfl)
  have hx : exec (.sll 0 0 0) s = .next s.advance := calc
    exec (.sll 0 0 0) s = .next (s.advance.writeReg 0 (s.advance.readReg 0 <<< 0)) := rfl
    _ = .next s.advance := by rw [BitVec.shiftLeft_zero, State.writeReg_readReg]
  calc
    step s = retireResult s.slot (exec (.sll 0 0 0) s) := step_of_instr hr hf hi
    _ = retireResult none (.next s.advance) := by rw [hs, hx]
    _ = .next { s with pc := s.pc + 4 } := rfl

end Sys2Proof.Proofs
end

section
/-! PROOFS of the family 40_cycle.md, part 1. What a step meets at the pc, that every instruction answers a next state,
and a run that keeps a property. -/

namespace Sys2Proof.Machine

open Sys2Proof.Safety

variable {s : State}

/-- Every instruction answers a next state: no arm of `exec` faults or refuses (40_cycle.md R80). -/
theorem exec_next (i : Instr) (s : State) : ∃ t, exec i s = .next t := by
  cases i with
  | sll | srl | add | addu | sub | subu | and | or | nor | slt | sltu => exact ⟨_, rfl⟩
  | addi | addiu | slti | sltiu | andi | ori | lui => exact ⟨_, rfl⟩
  | lbu | sb | halt => exact ⟨_, rfl⟩
  | lhu | lw | sh | sw =>
    simp only [exec, execLhu, execLw, execSh, execSw]
    split
    · exact ⟨_, rfl⟩
    · exact ⟨_, rfl⟩
  | j | jal | jr | beq | bne | blez | bgtz =>
    rw [exec_control rfl]
    cases hs : s.slot with
    | none => exact ⟨_, issue_of_empty hs⟩
    | some p => exact ⟨_, issue_of_pending hs⟩

/-- What stands at the pc (40_cycle.md R80): nothing that may be fetched, a word that is no instruction, or an
instruction. -/
theorem at_pc_cases (s : State) :
    (∃ f, s.fetch = .error (.fault f s.pc)) ∨
    (FW s ∧ ∃ e, decodeWord (s.mem.read32 s.pc) = .error e) ∨
    (FW s ∧ ∃ i, instrAt s = some i) := by
  rcases fetch_cases s with ⟨-, e⟩ | ⟨-, -, e⟩ | ⟨hf, -⟩
  · exact .inl ⟨_, e⟩
  · exact .inl ⟨_, e⟩
  · cases hd : decodeWord (s.mem.read32 s.pc) with
    | error e => exact .inr (.inl ⟨hf, e, rfl⟩)
    | ok i => exact .inr (.inr ⟨hf, i, instrAt_eq_some.mpr hd⟩)

/-- Four bytes and nothing more are decoded as one word (30_encoding.md R73). -/
theorem decodeWord_of_decode {b0 b1 b2 b3 : Byte} {i : Instr} (h : decode [b0, b1, b2, b3] = .ok (i, [])) :
    decodeWord (wordOfBytes b0 b1 b2 b3) = .ok i := by
  have hmap : (decodeWord (wordOfBytes b0 b1 b2 b3)).map (fun j => (j, ([] : List Byte))) = .ok (i, []) := h
  cases hw : decodeWord (wordOfBytes b0 b1 b2 b3) with
  | error e => rw [hw] at hmap; cases hmap
  | ok j => rw [hw] at hmap; cases hmap; rfl

/-- The step of an instruction that is executed to `t`. -/
theorem step_of_exec {t : State} {i : Instr} (hr : s.run = .running) (hf : FW s) (hi : instrAt s = some i)
    (hx : exec i s = .next t) : step s = .next (t.retire s.slot) := by
  rw [step_of_instr hr hf hi, hx]
  rfl

theorem step_next (hr : s.run = .running) : ∃ t, step s = .next t := by
  rcases at_pc_cases s with ⟨f, hk⟩ | ⟨hf, e, he⟩ | ⟨hf, i, hi⟩
  · exact ⟨_, step_of_fetch_error hr hk⟩
  · exact ⟨_, step_of_illegal hr (fetch_of_FW hf) he⟩
  · obtain ⟨t, hx⟩ := exec_next i s
    exact ⟨_, step_of_exec hr hf hi hx⟩

/-- A property that every state has a step from, and that the step keeps, holds after any number of steps. -/
theorem core_run_of_step {P : State → Prop} (hstep : ∀ s, P s → ∃ t, step s = .next t ∧ P t) (n : Nat)
    (hs : P s) : ∃ t : State, core.run n s = .next t ∧ P t := by
  induction n generalizing s with
  | zero => exact ⟨s, rfl, hs⟩
  | succ n ih =>
    obtain ⟨t, ht, hPt⟩ := hstep s hs
    obtain ⟨u, hu, hPu⟩ := ih hPt
    have hcore : core.step s = .next t := ht
    exact ⟨u, by simpa only [Host.Core.run, hcore] using hu, hPu⟩

end Sys2Proof.Machine
end

section
/-! PROOFS of the family 40_cycle.md, part 2. The endless run of R81: `j` to its own address with a no-op in its
slot. -/

namespace Sys2Proof.Machine

open Sys2Proof.Safety

/-- The no-op moves on and does nothing else (30_encoding.md R72). -/
theorem exec_nop (s : State) : exec (.sll 0 0 0) s = .next s.advance := calc
  exec (.sll 0 0 0) s = .next (s.advance.writeReg 0 (s.advance.readReg 0 <<< 0)) := rfl
  _ = .next s.advance := by rw [BitVec.shiftLeft_zero, State.writeReg_readReg]

/-- The program of R81, at its `j`. -/
def selfJump : State := State.load true true [encode (.j 0), encode (.sll 0 0 0)]

/-- The same program, in the slot of its `j`. -/
def selfJumpSlot : State := selfJump.advance.setSlot (some ⟨.j 0, 0#32, none⟩)

theorem step_selfJump : step selfJump = .next selfJumpSlot := by
  have hf : FW selfJump := by
    unfold FW
    decide
  have hx : exec (.j 0) selfJump = .next selfJumpSlot := issue_of_empty (s := selfJump) (c := .j 0) rfl
  exact step_of_exec rfl hf (by decide) hx

theorem step_selfJumpSlot : step selfJumpSlot = .next selfJump := by
  have hf : FW selfJumpSlot := by
    unfold FW
    decide
  calc
    step selfJumpSlot = .next (selfJumpSlot.advance.retire (some ⟨.j 0, 0#32, none⟩)) :=
      step_of_exec rfl hf (by decide) (exec_nop _)
    _ = .next selfJump := rfl

/-- The two states of the endless run. -/
abbrev InSelfJump (s : State) : Prop := s = selfJump ∨ s = selfJumpSlot

theorem step_inSelfJump (s : State) (h : InSelfJump s) : ∃ t, step s = .next t ∧ InSelfJump t := by
  rcases h with rfl | rfl
  · exact ⟨_, step_selfJump, .inr rfl⟩
  · exact ⟨_, step_selfJumpSlot, .inl rfl⟩

end Sys2Proof.Machine
end

section
/-! PROOFS of the family 40_cycle.md, part 3. The slot takes no part in what an instruction other than control flow
does, nor in a transfer, so the nested cycle, which has none, follows the step (40_cycle.md R87). -/

namespace Sys2Proof.Machine

open Sys2Proof.Safety

variable {s t : State} {i : Instr}

/-! ## Executing under another slot -/

@[simp] theorem State.setSlot_setSlot (q q' : Option Pending) : (s.setSlot q).setSlot q' = s.setSlot q' := rfl

theorem State.setSlot_of_slot {q : Option Pending} (h : s.slot = q) : s.setSlot q = s := by
  subst h
  rfl

theorem writeBack_setSlot {rd : Reg} {v : Word} (q : Option Pending) (h : s.writeBack rd v = .next t) :
    (s.setSlot q).writeBack rd v = .next (t.setSlot q) := by
  obtain rfl := writeBack_next h
  exact congrArg _ (State.writeReg_setSlot s.advance rd v q)

theorem storeBack_setSlot {m : Memory} (q : Option Pending) (h : s.storeBack m = .next t) :
    (s.setSlot q).storeBack m = .next (t.setSlot q) := by
  obtain rfl := storeBack_next h
  rfl

theorem stopAfter_setSlot {k : Run} (q : Option Pending) (h : s.stopAfter k = .next t) :
    (s.setSlot q).stopAfter k = .next (t.setSlot q) := by
  obtain rfl := stopAfter_next h
  rfl

/-- An instruction that is no control flow neither reads nor writes the slot, one case per shape. -/
theorem exec_setSlot (hc : asControl i = none) (q : Option Pending) (h : exec i s = .next t) :
    exec i (s.setSlot q) = .next (t.setSlot q) := by
  cases i with
  | sll | srl | add | addu | sub | subu | and | or | nor | slt | sltu => exact writeBack_setSlot q h
  | addi | addiu | slti | sltiu | andi | ori | lui | lbu => exact writeBack_setSlot q h
  | lhu | lw =>
    simp only [exec, execLhu, execLw] at h
    split at h
    · exact (if_pos ‹_›).trans (writeBack_setSlot q h)
    · exact (if_neg ‹_›).trans (stopAfter_setSlot q h)
  | sb => exact storeBack_setSlot q h
  | sh | sw =>
    simp only [exec, execSh, execSw] at h
    split at h
    · exact (if_pos ‹_›).trans (storeBack_setSlot q h)
    · exact (if_neg ‹_›).trans (stopAfter_setSlot q h)
  | j | jal | jr | beq | bne | blez | bgtz => cases hc
  | halt =>
    obtain rfl := execHalt_next h
    rfl

theorem exec_slot (hc : asControl i = none) (h : exec i s = .next t) : t.slot = s.slot := by
  have hx : exec i s = .next (t.setSlot s.slot) := exec_setSlot hc s.slot h
  injection h.symm.trans hx with ht
  rw [ht, State.setSlot_slot]

/-! ## Transferring under another slot -/

theorem branchTaken_setSlot (q : Option Pending) (c : Control) : (s.setSlot q).branchTaken c = s.branchTaken c := by
  cases c <;> rfl

theorem branch_setSlot (q : Option Pending) (c : Control) (early : Option Bool) (imm : BitVec 16) :
    (s.setSlot q).branch c early imm = (s.branch c early imm).setSlot q := by
  unfold State.branch
  rw [branchTaken_setSlot]
  split <;> rfl

/-- No transfer reads or writes the slot. -/
theorem resolve_setSlot (s : State) (q : Option Pending) (p : Pending) :
    (s.setSlot q).resolve p = (s.resolve p).setSlot q := by
  obtain ⟨c, a, e⟩ := p
  cases c with
  | beq rs rt imm | bne rs rt imm | bgtz rs imm | blez rs imm => exact branch_setSlot q _ e imm
  | j address | jr rs => rfl
  | jal address => exact congrArg (·.setPc (jumpTarget s.pc address)) (State.writeReg_setSlot s linkReg s.pc q)

/-- The nested cycle's transfer is the end of the step in all but the slot (40_cycle.md R85, R86). -/
theorem transferAfter_next (hs : s.slot = none) (p : Pending) :
    transferAfter p (.next s) = .next (((s.setSlot (some p)).retire (some p)).setSlot none) := by
  unfold transferAfter
  dsimp only
  split
  · rename_i hr
    have hslot : (s.resolve p).slot = none := (State.resolve_slot s p).trans hs
    rw [retire_of_running (s := s.setSlot (some p)) hr, resolve_setSlot, State.setSlot_setSlot,
      State.setSlot_setSlot, State.setSlot_of_slot hslot]
  · rename_i hr
    rw [retire_of_stopped (s := s.setSlot (some p)) hr, State.setSlot_setSlot, State.setSlot_of_slot hs]

/-! ## The source's cycle, by what stands at the pc -/

section Cycle
variable {onControl : Control → State → Result}

theorem cycleWith_of_fetch_error {k : Run} (h : s.fetch = .error k) : cycleWith onControl s = .next (s.stop k) := by
  unfold cycleWith
  rw [h]

theorem cycleWith_of_illegal {e : DecodeReject} (hf : FW s) (he : decodeWord (s.mem.read32 s.pc) = .error e) :
    cycleWith onControl s = .next (s.advance.stop (.illegal (s.mem.read32 s.pc))) := by
  unfold cycleWith
  rw [fetch_of_FW hf]
  simp only [he]
  rfl

theorem cycleWith_of_control {c : Control} (hf : FW s) (hi : instrAt s = some i) (hc : asControl i = some c) :
    cycleWith onControl s = onControl c s := by
  unfold cycleWith
  rw [fetch_of_FW hf]
  simp only [instrAt_eq_some.mp hi, hc]

theorem cycleWith_of_other (hf : FW s) (hi : instrAt s = some i) (hc : asControl i = none) :
    cycleWith onControl s = exec i s := by
  unfold cycleWith
  rw [fetch_of_FW hf]
  simp only [instrAt_eq_some.mp hi, hc]

end Cycle

/-- The nested cycle at the slot and the step that runs the slot: a stop drops the transfer, an instruction other than
control flow leads to it, and control flow there is a stop on both sides (44_control_flow.md R162). -/
theorem slotCycle_step (hr : s.run = .running) (p : Pending) :
    ∃ t, slotCycle s = .next t ∧ t.slot = s.slot ∧
      step (s.setSlot (some p)) = .next ((t.setSlot (some p)).retire (some p)) := by
  let pending := s.setSlot (some p)
  rcases at_pc_cases s with ⟨f, hk⟩ | ⟨hf, e, he⟩ | ⟨hf, i, hi⟩
  · refine ⟨_, cycleWith_of_fetch_error hk, rfl, ?_⟩
    rw [retire_of_stopped (by simp)]
    exact step_of_fetch_error (s := pending) hr hk
  · refine ⟨_, cycleWith_of_illegal hf he, rfl, ?_⟩
    rw [retire_of_stopped (by simp)]
    exact step_of_illegal (s := pending) hr (fetch_of_FW hf) he
  · cases hc : asControl i with
    | none =>
      obtain ⟨t, hx⟩ := exec_next i s
      exact ⟨t, (cycleWith_of_other hf hi hc).trans hx, exec_slot hc hx,
        step_of_exec (s := pending) hr hf hi (exec_setSlot hc _ hx)⟩
    | some c =>
      have hx : exec i pending = .next (pending.advance.stop (.fault .controlInDelaySlot s.pc)) :=
        (exec_control hc pending).trans (issue_of_pending rfl)
      exact ⟨_, cycleWith_of_control hf hi hc, rfl, step_of_exec (s := pending) hr hf hi hx⟩

end Sys2Proof.Machine
end

section
/-! PROOFS of the family 40_cycle.md, part 4. The obligations. -/

namespace Sys2Proof.Proofs

open Sys2Proof.Machine Sys2Proof.Safety

/-- Settles O57: step 1 makes the pending transfer of the nested cycle, and the step that runs the slot is that cycle
with its transfer; with no control flow at the pc the two are one case analysis. -/
theorem twoStepsAgreeWithNestedCycle : Obligations.TwoStepsAgreeWithNestedCycle := by
  intro s hr hs
  refine ⟨fun i c hf hi hc => ?_, fun hother => ?_⟩
  · have hx : exec i s = .next (s.advance.setSlot (some ⟨c, s.pc, s.earlyOutcome c⟩)) :=
      (exec_control hc s).trans (issue_of_empty hs)
    have h1 := step_of_exec hr hf hi hx
    rw [hs, retire_none] at h1
    obtain ⟨t, ht, hslot, h2⟩ := slotCycle_step (s := s.advance) hr ⟨c, s.pc, s.earlyOutcome c⟩
    refine ⟨_, _, h1, h2, ?_⟩
    rw [nestedCycle, cycleWith_of_control hf hi hc, ht]
    exact transferAfter_next (hslot.trans hs) _
  · rcases at_pc_cases s with ⟨f, hk⟩ | ⟨hf, e, he⟩ | ⟨hf, i, hi⟩
    · exact (step_of_fetch_error hr hk).trans (cycleWith_of_fetch_error hk).symm
    · exact (step_of_illegal hr (fetch_of_FW hf) he).trans (cycleWith_of_illegal hf he).symm
    · have hc : asControl i = none := Option.eq_none_iff_forall_ne_some.mpr fun c => hother i c hf hi
      obtain ⟨t, hx⟩ := exec_next i s
      rw [step_of_exec hr hf hi hx, hs, retire_none, nestedCycle, cycleWith_of_other hf hi hc, hx]

/-- Settles O41: the two effects that do not stop go on, and each stop is the state itself, at its pc or past it. -/
theorem stopsArePrecise : Obligations.StopsArePrecise := by
  intro s t hst ht
  obtain ⟨hr, he⟩ := step_effect hst
  cases he with
  | fetchFault | halt => exact ⟨rfl, .inl rfl⟩
  | illegal | misaligned | controlInSlot => exact ⟨rfl, .inr rfl⟩
  | issue => exact absurd hr ht
  | write | store => exact absurd (by simpa using hr) ht

/-- Settles O39: a stopped state fails the step's test, and the two states of the endless run step to each other. -/
theorem terminalStatesHaveNoStep : Obligations.TerminalStatesHaveNoStep := by
  refine ⟨fun s h => if_neg h, fun n => ?_⟩
  obtain ⟨t, ht, rfl | rfl⟩ := core_run_of_step step_inSelfJump n (.inl rfl)
  · exact ⟨_, ht, rfl, rfl⟩
  · exact ⟨_, ht, rfl, rfl⟩

/-- Settles O35: the four bytes are the fetched word, and the transfer is the end of the step. -/
theorem stepRunsTheDecodedInstruction : Obligations.StepRunsTheDecodedInstruction := by
  intro s i hr hf hd
  have hi : instrAt s = some i := instrAt_eq_some.mpr (decodeWord_of_decode hd)
  obtain ⟨t, hx⟩ := exec_next i s
  refine ⟨t, hx, (step_of_exec hr hf hi hx).trans ?_⟩
  cases s.slot <;> rfl

/-- Settles O37: the sentinel decodes to `halt`, and a stop ends the step whatever is pending. -/
theorem sentinelHalts : Obligations.SentinelHalts := by
  refine ⟨fun s => rfl, fun s hr hf hw => ?_⟩
  have hi : instrAt s = some .halt := instrAt_eq_some.mpr (hw ▸ rfl)
  have hx : exec .halt s = .next (s.stop .halted) := rfl
  rw [step_of_exec hr hf hi hx, retire_of_stopped (by simp)]
  rfl

/-- Settles O38: the illegal word stops the step before its end, where the transfer would be applied. -/
theorem illegalWordStops : Obligations.IllegalWordStops := fun _ _ hr hf he =>
  step_of_illegal hr (fetch_of_FW hf) he

/-- Settles O40: by the arms of `exec`, and from them by what stands at the pc. -/
theorem everyInstructionAnswersNext : Obligations.EveryInstructionAnswersNext :=
  ⟨exec_next, fun _ => ⟨fun ⟨_, h⟩ => (step_effect h).1, step_next⟩⟩

end Sys2Proof.Proofs
end

section
/-! PROOFS of the family 41_register_alu.md, part 1. A word of opcode 0 by its funct and its register fields, and what
an instruction of one register write leaves (41_register_alu.md R100). -/

namespace Sys2Proof

open Sys2Proof.Safety

variable {w : Word}

/-- Under opcode 0 the funct selects the instruction, whatever the other fields hold (40_cycle.md R83). -/
theorem decodeWord_of_funct {funct : BitVec 6} {build : Fields → Instr} (hop : opcodeAt w = 0)
    (hfn : functAt w = funct.toNat) (hb : dispatchFunct funct = some build) :
    decodeWord w = .ok (build (decodeFields w)) := by
  have hf : (decodeFields w).funct = funct := BitVec.eq_of_toNat_eq ((functAt_eq w).symm.trans hfn)
  apply decodeWord_of_dispatchOf
  rw [dispatchOf_of_opcode_zero (opcodeAt_eq_zero.mp hop), hf, hb]

theorem regOfField_decodeFields_rd (w : Word) : regOfField (decodeFields w).rd = regAt w 11 :=
  Fin.ext (decodeFields_rd_toNat w)

theorem regOfField_decodeFields_rs (w : Word) : regOfField (decodeFields w).rs = regAt w 21 :=
  Fin.ext (decodeFields_rs_toNat w)

theorem regOfField_decodeFields_rt (w : Word) : regOfField (decodeFields w).rt = regAt w 16 :=
  Fin.ext (decodeFields_rt_toNat w)

end Sys2Proof

namespace Sys2Proof.Machine

open Sys2Proof.Safety

/-! ## Results as numbers -/

/-- Subtraction is the difference of the unsigned readings, taken modulo 2^32 (R103, R104). -/
theorem sub_eq_ofInt (x y : Word) : x - y = BitVec.ofInt 32 (x.toNat - y.toNat) := by
  rw [Int.sub_eq_add_neg, BitVec.ofInt_add, BitVec.ofInt_neg, BitVec.ofInt_natCast, BitVec.ofInt_natCast,
    BitVec.ofNat_toNat, BitVec.ofNat_toNat, BitVec.setWidth_eq, BitVec.setWidth_eq, BitVec.sub_eq_add_neg]

theorem shiftLeft_eq_ofNat (x : Word) (n : Nat) : x <<< n = BitVec.ofNat 32 (x.toNat * 2 ^ n) := by
  apply BitVec.eq_of_toNat_eq
  rw [BitVec.toNat_shiftLeft, BitVec.toNat_ofNat, Nat.shiftLeft_eq]

theorem ushiftRight_eq_ofNat (x : Word) (n : Nat) : x >>> n = BitVec.ofNat 32 (x.toNat / 2 ^ n) := by
  have hlt : x.toNat / 2 ^ n < 2 ^ 32 := (Nat.div_le_self _ _).trans_lt x.isLt
  apply BitVec.eq_of_toNat_eq
  rw [BitVec.toNat_ushiftRight, BitVec.toNat_ofNat, Nat.shiftRight_eq_div_pow, Nat.mod_eq_of_lt hlt]

theorem boolWord_decide (p : Prop) [Decidable p] : boolWord (decide p) = if p then 1 else 0 :=
  if_congr decide_eq_true_iff rfl rfl

theorem boolWord_lessSigned (x y : Word) : boolWord (lessSigned x y) = if x.toInt < y.toInt then 1 else 0 := by
  rw [lessSigned, BitVec.slt_eq_decide, boolWord_decide]

theorem boolWord_lessUnsigned (x y : Word) : boolWord (lessUnsigned x y) = if x.toNat < y.toNat then 1 else 0 := by
  rw [lessUnsigned, BitVec.ult_eq_decide, boolWord_decide]

/-! ## The effect of an instruction that writes one register -/

section WritesOneRegister
variable {i : Instr} {s : State} {rd : Reg} {v : Word}

/-- An instruction whose meaning is one write-back goes on and changes its destination and the pc only; the value
written may be named as any word equal to it. -/
theorem exec_writesReg_of_eq {r : Word} (hx : exec i s = s.writeBack rd v) (hv : v = r) :
    ∃ t, exec i s = .next t ∧ WritesReg s t rd r := by
  rw [hx, ← hv]
  exact writeBack_writesReg s rd v

/-- The same, the value written described by a property. -/
theorem exec_writesReg_with {P : Word → Prop} (hx : exec i s = s.writeBack rd v) (hv : P v) :
    ∃ t r, exec i s = .next t ∧ WritesReg s t rd r ∧ P r := by
  obtain ⟨t, ht, hw⟩ := exec_writesReg_of_eq hx rfl
  exact ⟨t, v, ht, hw, hv⟩

end WritesOneRegister

end Sys2Proof.Machine
end

section
/-! PROOFS of the family 41_register_alu.md, part 2. The obligations: each instruction is one write-back, of a value
that part 1 or the library reads as the rule states it. -/

namespace Sys2Proof.Proofs

open Sys2Proof.Machine Sys2Proof.Safety

/-- Settles O12: by its dispatch row, and as a write-back of the sum. -/
theorem addRule : Obligations.AddRule := by
  refine ⟨fun w hop hfn => ?decoding, fun rd rs rt s => ?result⟩
  case decoding =>
    rw [decodeWord_of_funct (funct := 0x20#6) hop hfn rfl, regOfField_decodeFields_rd, regOfField_decodeFields_rs,
      regOfField_decodeFields_rt]
  case result => exact exec_writesReg_of_eq rfl (BitVec.add_def _ _)

/-- Settles O13: addu as add, and the two differences alike. -/
theorem adduSubSubuResults : Obligations.AdduSubSubuResults := by
  intro rd rs rt s
  refine ⟨?addu, ?sub, ?subu⟩
  case addu => exact exec_writesReg_of_eq rfl (BitVec.add_def _ _)
  case sub => exact exec_writesReg_of_eq rfl (sub_eq_ofInt _ _)
  case subu => exact exec_writesReg_of_eq rfl (sub_eq_ofInt _ _)

/-- Settles O14: bit by bit; the complement only for the 32 bits of the word, since those past it are 0. -/
theorem bitwiseResults : Obligations.BitwiseResults := by
  intro rd rs rt s
  refine ⟨?and, ?or, ?nor⟩
  case and => exact exec_writesReg_with rfl fun k => BitVec.getLsbD_and
  case or => exact exec_writesReg_with rfl fun k => BitVec.getLsbD_or
  case nor =>
    refine exec_writesReg_with rfl fun k hk => ?_
    rw [BitVec.getLsbD_not, BitVec.getLsbD_or, decide_eq_true hk, Bool.true_and]

/-- Settles O15: the shifts as a product and a quotient, for every amount. -/
theorem shiftResults : Obligations.ShiftResults := fun _ _ _ _ =>
  ⟨exec_writesReg_of_eq rfl (shiftLeft_eq_ofNat _ _), exec_writesReg_of_eq rfl (ushiftRight_eq_ofNat _ _)⟩

/-- Settles O16: each comparison as its reading of the two words. -/
theorem setLessThanResults : Obligations.SetLessThanResults := fun _ _ _ _ =>
  ⟨exec_writesReg_of_eq rfl (boolWord_lessSigned _ _), exec_writesReg_of_eq rfl (boolWord_lessUnsigned _ _)⟩

end Sys2Proof.Proofs
end

section
/-! PROOFS of the family 42_immediate_alu.md, part 1. A word of an opcode other than 0 by that opcode, and what the
extended immediate contributes to a result, as a number (30_encoding.md R66). -/

namespace Sys2Proof

open Sys2Proof.Safety

variable {w : Word}

/-- An opcode other than 0 selects the instruction, whatever the funct bits hold (40_cycle.md R83). -/
theorem decodeWord_of_opcode {opcode : BitVec 6} {build : Fields → Instr} (hop : opcodeAt w = opcode.toNat)
    (hne : opcode ≠ 0#6) (hb : dispatchOpcode opcode = some build) :
    decodeWord w = .ok (build (decodeFields w)) := by
  have ho : (decodeFields w).opcode = opcode := BitVec.eq_of_toNat_eq ((opcodeAt_eq w).symm.trans hop)
  apply decodeWord_of_dispatchOf
  rw [dispatchOf_of_opcode_ne_zero (ho.trans_ne hne), ho, hb]

theorem eq_ofNat_of_toNat_eq {n k : Nat} {x : BitVec n} (h : x.toNat = k) : x = BitVec.ofNat n k := by
  rw [← h, BitVec.ofNat_toNat, BitVec.setWidth_eq]

theorem decodeFields_imm (w : Word) : (decodeFields w).imm = immAt w :=
  eq_ofNat_of_toNat_eq (decodeFields_imm_toNat w)

end Sys2Proof

namespace Sys2Proof.Machine

/-! ## The extensions -/

theorem sext32_eq (imm : BitVec 16) : sext32 imm = BitVec.ofInt 32 imm.toInt := rfl

theorem sext32_toInt (imm : BitVec 16) : (sext32 imm).toInt = imm.toInt :=
  BitVec.toInt_signExtend_of_le (by decide)

theorem zext32_toNat (imm : BitVec 16) : (zext32 imm).toNat = imm.toNat :=
  BitVec.toNat_setWidth_of_le (by decide)

/-- The immediate in the upper half is the immediate times 2^16 (R125). -/
theorem upperImmediate_eq (imm : BitVec 16) : upperImmediate imm = BitVec.ofNat 32 (imm.toNat * 2 ^ 16) := by
  apply eq_ofNat_of_toNat_eq
  rw [upperImmediate, toNat_append_add, BitVec.toNat_ofNat, Nat.zero_mod, Nat.add_zero]

/-! ## Results as numbers -/

/-- Adding the sign-extended immediate is the exact sum with its signed reading, modulo 2^32 (R121, R122). -/
theorem add_sext32 (x : Word) (imm : BitVec 16) : x + sext32 imm = BitVec.ofInt 32 (x.toNat + imm.toInt) := by
  rw [BitVec.ofInt_add, BitVec.ofInt_natCast, BitVec.ofNat_toNat, BitVec.setWidth_eq, sext32_eq]

/-- Only the low half of a word meets a zero-extended immediate (R123). -/
theorem and_zext32 (x : Word) (imm : BitVec 16) :
    x &&& zext32 imm = BitVec.ofNat 32 (x.toNat % 2 ^ 16 &&& imm.toNat) :=
  eq_ofNat_of_toNat_eq <| calc
    (x &&& zext32 imm).toNat = x.toNat &&& imm.toNat := by rw [BitVec.toNat_and, zext32_toNat]
    _ = (x.toNat &&& imm.toNat) % 2 ^ 16 := (Nat.mod_eq_of_lt (Nat.and_lt_two_pow _ imm.isLt)).symm
    _ = x.toNat % 2 ^ 16 &&& imm.toNat := by rw [Nat.and_mod_two_pow, Nat.mod_eq_of_lt imm.isLt]

theorem or_zext32 (x : Word) (imm : BitVec 16) : x ||| zext32 imm = BitVec.ofNat 32 (x.toNat ||| imm.toNat) := by
  apply eq_ofNat_of_toNat_eq
  rw [BitVec.toNat_or, zext32_toNat]

end Sys2Proof.Machine
end

section
/-! PROOFS of the family 42_immediate_alu.md, part 2. The obligations: each instruction is one write-back, of a value
that part 1 reads as the rule states it. -/

namespace Sys2Proof.Proofs

open Sys2Proof.Machine Sys2Proof.Safety

/-- Settles O17: by its dispatch row, and as a write-back of the sum. -/
theorem addiRule : Obligations.AddiRule := by
  refine ⟨fun w hop => ?decoding, fun rt rs imm s => ?result⟩
  case decoding =>
    rw [decodeWord_of_opcode (opcode := 0x08#6) hop (by decide) rfl, regOfField_decodeFields_rt,
      regOfField_decodeFields_rs, decodeFields_imm]
  case result => exact exec_writesReg_of_eq rfl (add_sext32 _ _)

/-- Settles O18: addiu as addi, and the others by what the zero-extended or shifted immediate is as a number. -/
theorem immediateResults : Obligations.ImmediateResults := by
  intro rt rs imm s
  refine ⟨?addiu, ?andi, ?ori, ?lui⟩
  case addiu => exact exec_writesReg_of_eq rfl (add_sext32 _ _)
  case andi => exact exec_writesReg_of_eq rfl (and_zext32 _ _)
  case ori => exact exec_writesReg_of_eq rfl (or_zext32 _ _)
  case lui => exact exec_writesReg_of_eq rfl (upperImmediate_eq _)

/-- Settles O19: each comparison as its reading of the register and of the sign-extended immediate. -/
theorem setLessThanImmediateResults : Obligations.SetLessThanImmediateResults := by
  intro rt rs imm s
  refine ⟨?slti, ?sltiu⟩
  case slti =>
    have hv := boolWord_lessSigned (s.readReg rs) (sext32 imm)
    rw [sext32_toInt] at hv
    exact exec_writesReg_of_eq rfl hv
  case sltiu =>
    have hv := boolWord_lessUnsigned (s.readReg rs) (sext32 imm)
    rw [sext32_eq] at hv
    exact exec_writesReg_of_eq rfl hv

end Sys2Proof.Proofs
end

section
/-! PROOFS of the family 43_load_store.md, part 1. What a load reads as a number, the bytes a store leaves, as the
low-order digits of its value, and the effect of an instruction of one store (43_load_store.md R141 to R146). -/

namespace Sys2Proof.Machine

open Sys2Proof.Safety

/-! ## Loaded values as numbers -/

theorem Memory.read8_zeroExtend (m : Memory) (a : Word) :
    (m.read8 a).zeroExtend 32 = BitVec.ofNat 32 (m.read8 a).toNat :=
  (BitVec.ofNat_toNat 32 _).symm

theorem Memory.read16_zeroExtend (m : Memory) (a : Word) :
    (m.read16 a).zeroExtend 32 = BitVec.ofNat 32 ((m.read8 a).toNat * 2 ^ 8 + (m.read8 (a + 1)).toNat) := by
  rw [← m.read16_toNat a, BitVec.ofNat_toNat]

theorem Memory.read32_eq_ofNat (m : Memory) (a : Word) :
    m.read32 a = BitVec.ofNat 32 ((m.read8 a).toNat * 2 ^ 24 + (m.read8 (a + 1)).toNat * 2 ^ 16 +
      (m.read8 (a + 2)).toNat * 2 ^ 8 + (m.read8 (a + 3)).toNat) :=
  eq_ofNat_of_toNat_eq (m.read32_toNat a)

/-! ## Stored bytes as digits of the stored value -/

section StoredBytes
variable (m : Memory) (a x : Word)

theorem eq_ofNat_of_toNat_eq_mod {n k : Nat} {v : BitVec n} (h : v.toNat = k % 2 ^ n) : v = BitVec.ofNat n k :=
  BitVec.eq_of_toNat_eq (h.trans (BitVec.toNat_ofNat k n).symm)

/-- A byte write of the low byte of a register leaves that byte (R144). -/
theorem Memory.write8_stored (k : Nat) (h : k < [BitVec.ofNat 8 x.toNat].length) :
    (m.write8 a (x.extractLsb' 0 8)).read8 (a + BitVec.ofNat 32 k) = [BitVec.ofNat 8 x.toNat][k] := by
  obtain rfl : k = 0 := Nat.lt_one_iff.mp h
  rw [BitVec.add_zero, Memory.read8_write8, if_pos rfl]
  rfl

/-- A halfword write of the low half of a register leaves its two low bytes, the higher first (R145, R43). -/
theorem Memory.write16_stored (k : Nat)
    (h : k < [BitVec.ofNat 8 (x.toNat / 2 ^ 8), BitVec.ofNat 8 x.toNat].length) :
    (m.write16 a (x.extractLsb' 0 16)).read8 (a + BitVec.ofNat 32 k)
      = [BitVec.ofNat 8 (x.toNat / 2 ^ 8), BitVec.ofNat 8 x.toNat][k] := by
  obtain ⟨b0, b1⟩ := m.write16_bytes a (x.extractLsb' 0 16)
  rw [BitVec.extractLsb'_toNat, Nat.shiftRight_zero] at b0 b1
  match k, h with
  | 0, _ =>
    rw [BitVec.add_zero]
    exact eq_ofNat_of_toNat_eq_mod (b0.trans (by omega))
  | 1, _ => exact eq_ofNat_of_toNat_eq_mod (b1.trans (by omega))

/-- A word write leaves the four bytes, the highest first (R146, R43). -/
theorem Memory.write32_stored (k : Nat)
    (h : k < [BitVec.ofNat 8 (x.toNat / 2 ^ 24), BitVec.ofNat 8 (x.toNat / 2 ^ 16),
      BitVec.ofNat 8 (x.toNat / 2 ^ 8), BitVec.ofNat 8 x.toNat].length) :
    (m.write32 a x).read8 (a + BitVec.ofNat 32 k)
      = [BitVec.ofNat 8 (x.toNat / 2 ^ 24), BitVec.ofNat 8 (x.toNat / 2 ^ 16),
        BitVec.ofNat 8 (x.toNat / 2 ^ 8), BitVec.ofNat 8 x.toNat][k] := by
  obtain ⟨b0, b1, b2, b3⟩ := m.write32_bytes a x
  match k, h with
  | 0, _ =>
    rw [BitVec.add_zero]
    exact eq_ofNat_of_toNat_eq b0
  | 1, _ => exact eq_ofNat_of_toNat_eq_mod b1
  | 2, _ => exact eq_ofNat_of_toNat_eq_mod b2
  | 3, _ => exact eq_ofNat_of_toNat_eq_mod b3

end StoredBytes

/-! ## The effect of an instruction that stores -/

/-- An instruction whose meaning is one replacement of the memory goes on and changes the stored bytes and the pc
only. -/
theorem exec_storesBytes_of_eq {i : Instr} {s : State} {m : Memory} {a : Word} {bytes : List Byte}
    (hx : exec i s = s.storeBack m)
    (stored : ∀ k (h : k < bytes.length), m.read8 (a + BitVec.ofNat 32 k) = bytes[k])
    (others : ∀ b : Nat, Outside a bytes.length b → m.read b = s.mem.read b) :
    ∃ t, exec i s = .next t ∧ StoresBytes s t a bytes := by
  rw [hx]
  exact storeBack_storesBytes s m a bytes stored others

end Sys2Proof.Machine
end

section
/-! PROOFS of the family 43_load_store.md, part 2. The obligations: each load is one write-back and each store one
replacement of the memory, the wider ones once their alignment check has passed (20_memory.md R45). -/

namespace Sys2Proof.Proofs

open Sys2Proof.Machine Sys2Proof.Safety

/-- Settles O20: the sum that addi makes, of the base and the displacement. -/
theorem effectiveAddressWraps : Obligations.EffectiveAddressWraps := fun s rs imm => add_sext32 (s.readReg rs) imm

/-- Settles O21: a write-back without an alignment check. -/
theorem loadByteResult : Obligations.LoadByteResult := fun _ rs imm s =>
  exec_writesReg_of_eq rfl (s.mem.read8_zeroExtend (s.effectiveAddress rs imm))

/-- Settles O22: the check passes at an even address, and the halfword is its two bytes. -/
theorem loadHalfwordResult : Obligations.LoadHalfwordResult := by
  intro rt rs imm s a h
  exact exec_writesReg_of_eq (if_pos ((aligned2_iff a).mpr h)) (s.mem.read16_zeroExtend a)

/-- Settles O23: the check passes at a multiple of 4, and the word is its four bytes. -/
theorem loadWordResult : Obligations.LoadWordResult := by
  intro rt rs imm s a h
  exact exec_writesReg_of_eq (if_pos ((aligned4_iff a).mpr h)) (s.mem.read32_eq_ofNat a)

/-- Settles O24: a replacement of the memory without an alignment check. -/
theorem storeByteResult : Obligations.StoreByteResult := fun rt rs imm s =>
  exec_storesBytes_of_eq rfl (s.mem.write8_stored (s.effectiveAddress rs imm) (s.readReg rt))
    fun _ hb => read_write8_outside _ _ _ hb

/-- Settles O25: the check passes at an even address, and the halfword write leaves the two bytes. -/
theorem storeHalfwordResult : Obligations.StoreHalfwordResult := by
  intro rt rs imm s a v h
  exact exec_storesBytes_of_eq (if_pos ((aligned2_iff a).mpr h)) (s.mem.write16_stored a (s.readReg rt))
    fun _ hb => read_write16_outside _ _ _ hb

/-- Settles O26: the check passes at a multiple of 4, and the word write leaves the four bytes. -/
theorem storeWordResult : Obligations.StoreWordResult := by
  intro rt rs imm s a v h
  exact exec_storesBytes_of_eq (if_pos ((aligned4_iff a).mpr h)) (s.mem.write32_stored a (s.readReg rt))
    fun _ hb => read_write32_outside _ _ _ hb

end Sys2Proof.Proofs
end

section
/-! PROOFS of the family 44_control_flow.md, part 1. What a branch compares, as numbers, and the transfer at the end of
a delay slot that goes on (44_control_flow.md R164 to R172). -/

namespace Sys2Proof.Machine

open Sys2Proof.Safety

variable {s t : State} {i : Instr} {c : Control} {taken : Bool}

/-! ## The compare of a branch (R165 to R168) -/

theorem isPositive_eq_decide (x : Word) : isPositive x = decide (x.toInt > 0) := by
  rw [isPositive, lessSigned, BitVec.slt_eq_decide, BitVec.toInt_zero]

theorem isNonPositive_eq_decide (x : Word) : isNonPositive x = decide (x.toInt ≤ 0) := by
  rw [isNonPositive, isPositive_eq_decide, ← decide_not, decide_eq_decide, not_lt]

theorem branchTaken_beq (s : State) (rs rt : Reg) (imm : BitVec 16) :
    s.branchTaken (.beq rs rt imm) = some (decide (s.readReg rs = s.readReg rt)) :=
  congrArg some (beq_eq_decide _ _)

theorem branchTaken_bne (s : State) (rs rt : Reg) (imm : BitVec 16) :
    s.branchTaken (.bne rs rt imm) = some (decide (s.readReg rs ≠ s.readReg rt)) := by
  rw [State.branchTaken, bne, beq_eq_decide, ← decide_not]

theorem branchTaken_bgtz (s : State) (rs : Reg) (imm : BitVec 16) :
    s.branchTaken (.bgtz rs imm) = some (decide ((s.readReg rs).toInt > 0)) :=
  congrArg some (isPositive_eq_decide _)

theorem branchTaken_blez (s : State) (rs : Reg) (imm : BitVec 16) :
    s.branchTaken (.blez rs imm) = some (decide ((s.readReg rs).toInt ≤ 0)) :=
  congrArg some (isNonPositive_eq_decide _)

/-! ## Step 1 (R161) -/

/-- What step 1 leaves, the kept compare being given. -/
theorem exec_control_of_empty {early : Option Bool} (hc : asControl i = some c) (hs : s.slot = none)
    (he : s.earlyOutcome c = early) :
    exec i s = .next { s with pc := s.pc + 4, slot := some ⟨c, s.pc, early⟩ } := by
  rw [exec_control hc, issue_of_empty hs, he]
  rfl

/-- What step 1 keeps of a conditional branch (R163; log 13). -/
theorem earlyOutcome_of_branchTaken (h : s.branchTaken c = some taken) :
    s.earlyOutcome c = if s.config.branchOperandsAfterSlot then none else some taken := by
  rw [State.earlyOutcome, h]

/-- A jump compares nothing, so step 1 keeps nothing. -/
theorem earlyOutcome_of_branchTaken_none (h : s.branchTaken c = none) : s.earlyOutcome c = none := by
  rw [State.earlyOutcome, h, ite_self]

/-! ## Step 2 (R161) -/

/-- Every instruction that goes on leaves the pc past itself: the transfer comes after it (10_state.md R28). -/
theorem exec_pc_of_running (h : exec i s = .next t) (ht : t.run = .running) : t.pc = s.pc + 4 := by
  rcases exec_cases h with
    ⟨rd, v, -, rfl⟩ | ⟨a, n, m, -, rfl, -, -⟩ | ⟨a, n, -, -, rfl⟩ | ⟨c, -, hu⟩ | ⟨-, rfl⟩
  · rw [State.writeReg_pc, State.advance_pc]
  · rfl
  · cases ht
  · rcases issue_next hu with ⟨-, rfl⟩ | ⟨p, -, rfl⟩
    · rfl
    · cases ht
  · cases ht

/-- A delay slot that goes on ends with the pending transfer (40_cycle.md R85). -/
theorem step_of_slot {p : Pending} (hr : s.run = .running) (hp : s.slot = some p) (hf : FW s)
    (hi : instrAt s = some i) (hx : exec i s = .next t) (ht : t.run = .running) :
    step s = .next ((t.resolve p).setSlot none) := by
  rw [step_of_exec hr hf hi hx, hp, retire_of_running ht]

/-- The transfer of a conditional branch, as a number: the kept compare goes before the one made now (R163, R164). -/
theorem branch_eq_setPc (h : s.branchTaken c = some taken) (early : Option Bool) (imm : BitVec 16) :
    s.branch c early imm
      = s.setPc (if early.getD taken then BitVec.ofInt 32 (s.pc.toNat + 4 * imm.toInt) else s.pc) := by
  have horElse : (early <|> some taken) = some (early.getD taken) := by cases early <;> rfl
  rw [State.branch, h, horElse, branchTarget_eq]
  cases early.getD taken <;> rfl

/-- The link register is not index 0, so what jal writes there is read back (10_state.md R23, R25). -/
theorem readReg_writeReg_linkReg (s : State) (v : Word) : (s.writeReg linkReg v).readReg linkReg = v := by
  rw [State.readReg_writeReg, if_pos rfl, if_neg (fun h => absurd h.1 (by decide))]

end Sys2Proof.Machine
end

section
/-! PROOFS of the family 44_control_flow.md, part 2. A transfer reads the registers and the pc only, so it commutes
with replacing any other part of the state. -/

namespace Sys2Proof.Machine

/-- `f` replaces parts of the state that no register access and no transfer reads: the registers, the pc and
`R0_WRITABLE` are as they were, and writing the first two may come before or after. -/
structure ReplacesNoRegister (f : State → State) : Prop where
  gpr : ∀ s, (f s).gpr = s.gpr
  pc : ∀ s, (f s).pc = s.pc
  r0Writable : ∀ s, (f s).config.r0Writable = s.config.r0Writable
  setGpr : ∀ s g, ({ f s with gpr := g } : State) = f { s with gpr := g }
  setPc : ∀ s v, (f s).setPc v = f (s.setPc v)

namespace ReplacesNoRegister

variable {f : State → State} (hf : ReplacesNoRegister f) (s : State)
include hf

theorem readReg (r : Reg) : (f s).readReg r = s.readReg r := by
  unfold State.readReg
  rw [hf.r0Writable, hf.gpr]

theorem writeReg (r : Reg) (v : Word) : (f s).writeReg r v = f (s.writeReg r v) := by
  unfold State.writeReg
  rw [hf.r0Writable, hf.gpr]
  split
  · rfl
  · exact hf.setGpr _ _

theorem branchTaken (c : Control) : (f s).branchTaken c = s.branchTaken c := by
  cases c <;> simp only [State.branchTaken, hf.readReg]

theorem branch (c : Control) (early : Option Bool) (imm : BitVec 16) :
    (f s).branch c early imm = f (s.branch c early imm) := by
  unfold State.branch
  rw [hf.branchTaken, hf.pc, hf.setPc]
  split <;> rfl

theorem resolve (p : Pending) : (f s).resolve p = f (s.resolve p) := by
  obtain ⟨c, a, early⟩ := p
  cases c with
  | beq rs rt imm | bne rs rt imm | bgtz rs imm | blez rs imm => exact hf.branch s _ early imm
  | j address =>
    simp only [State.resolve, resolveJ]
    rw [hf.pc, hf.setPc]
  | jal address =>
    simp only [State.resolve, resolveJal]
    rw [hf.pc, hf.writeReg, hf.setPc]
  | jr rs =>
    simp only [State.resolve, resolveJr]
    rw [hf.readReg, hf.setPc]

end ReplacesNoRegister

end Sys2Proof.Machine
end

section
/-! PROOFS of the family 44_control_flow.md, part 3. What control flow touches (44_control_flow.md R160): no memory, and
no register but jal's link. -/

namespace Sys2Proof.Machine

open Sys2Proof.Safety

variable {s t : State} {i : Instr} {c : Control}

/-- The control-flow instructions, by name. -/
theorem asControl_iff_mnemonic (i : Instr) :
    (∃ c, asControl i = some c) ↔ i.mnemonic ∈ ["beq", "bne", "bgtz", "blez", "j", "jal", "jr"] := by
  cases i with
  | beq | bne | bgtz | blez | j | jal | jr => exact iff_of_true ⟨_, rfl⟩ (by simp [Instr.mnemonic])
  | sll | srl | add | addu | sub | subu | and | or | nor | slt | sltu
  | addi | addiu | slti | sltiu | andi | ori | lui | lw | lbu | lhu | sb | sh | sw | halt =>
    exact iff_of_false nofun (by simp [Instr.mnemonic])

/-- Only jal's transfer writes a register, register 31 (R171). -/
theorem linkOf_eq_some {r : Reg} (h : linkOf c = some r) : r = 31 ∧ ∃ address, c = .jal address := by
  cases c with
  | jal address => exact ⟨(Option.some.inj h).symm, address, rfl⟩
  | beq | bne | bgtz | blez | j | jr => cases h

/-! ## Step 1 under another memory -/

theorem earlyOutcome_setMem (m : Memory) (c : Control) : (s.setMem m).earlyOutcome c = s.earlyOutcome c := by
  cases c <;> rfl

/-- Step 1 writes no memory and no register, whether it sets the slot or stops. -/
theorem issue_frame (h : s.issue c = .next t) : t.mem = s.mem ∧ ∀ r, t.readReg r = s.readReg r := by
  rcases issue_next h with ⟨-, rfl⟩ | ⟨p, -, rfl⟩
  · exact ⟨rfl, fun _ => rfl⟩
  · exact ⟨rfl, fun _ => rfl⟩

theorem issue_setMem (m : Memory) (h : s.issue c = .next t) : (s.setMem m).issue c = .next (t.setMem m) := by
  rcases issue_next h with ⟨hs, rfl⟩ | ⟨p, hp, rfl⟩
  · rw [issue_of_empty (s := s.setMem m) hs, earlyOutcome_setMem]
    rfl
  · exact issue_of_pending (s := s.setMem m) hp

/-! ## The transfer under another memory -/

theorem replacesNoRegister_setMem (m : Memory) : ReplacesNoRegister (·.setMem m) :=
  ⟨fun _ => rfl, fun _ => rfl, fun _ => rfl, fun _ _ => rfl, fun _ _ => rfl⟩

/-- No transfer reads or writes memory. -/
theorem resolve_setMem (s : State) (p : Pending) (m : Memory) :
    (s.setMem m).resolve p = (s.resolve p).setMem m :=
  (replacesNoRegister_setMem m).resolve s p

end Sys2Proof.Machine
end

section
/-! PROOFS of the family 44_control_flow.md, part 4. The timing of the compare (44_control_flow.md R163): no instruction
but control flow reads it, nor does a transfer, and a compare kept by step 1 is the one made after the slot where the
slot leaves its registers alone. -/

namespace Sys2Proof.Safety

open Sys2Proof.Machine

variable {s t u : State} {i : Instr} {c : Control}

/-! ## Executing under another compare timing -/

theorem replacesNoRegister_withCompareAfterSlot (b : Bool) : ReplacesNoRegister (withCompareAfterSlot · b) :=
  ⟨fun _ => rfl, fun _ => rfl, fun _ => rfl, fun _ _ => rfl, fun _ _ => rfl⟩

theorem writeBack_withCompareAfterSlot {rd : Reg} {v : Word} (b : Bool) (h : s.writeBack rd v = .next t) :
    (withCompareAfterSlot s b).writeBack rd v = .next (withCompareAfterSlot t b) := by
  obtain rfl := writeBack_next h
  exact congrArg _ ((replacesNoRegister_withCompareAfterSlot b).writeReg s.advance rd v)

theorem storeBack_withCompareAfterSlot {m : Memory} (b : Bool) (h : s.storeBack m = .next t) :
    (withCompareAfterSlot s b).storeBack m = .next (withCompareAfterSlot t b) := by
  obtain rfl := storeBack_next h
  rfl

theorem stopAfter_withCompareAfterSlot {k : Run} (b : Bool) (h : s.stopAfter k = .next t) :
    (withCompareAfterSlot s b).stopAfter k = .next (withCompareAfterSlot t b) := by
  obtain rfl := stopAfter_next h
  rfl

/-- An instruction that is no control flow does not read the compare timing, one case per shape. -/
theorem exec_withCompareAfterSlot (hc : asControl i = none) (b : Bool) (h : exec i s = .next t) :
    exec i (withCompareAfterSlot s b) = .next (withCompareAfterSlot t b) := by
  cases i with
  | sll | srl | add | addu | sub | subu | and | or | nor | slt | sltu => exact writeBack_withCompareAfterSlot b h
  | addi | addiu | slti | sltiu | andi | ori | lui | lbu => exact writeBack_withCompareAfterSlot b h
  | lhu | lw =>
    simp only [exec, execLhu, execLw] at h
    split at h
    · exact (if_pos ‹_›).trans (writeBack_withCompareAfterSlot b h)
    · exact (if_neg ‹_›).trans (stopAfter_withCompareAfterSlot b h)
  | sb => exact storeBack_withCompareAfterSlot b h
  | sh | sw =>
    simp only [exec, execSh, execSw] at h
    split at h
    · exact (if_pos ‹_›).trans (storeBack_withCompareAfterSlot b h)
    · exact (if_neg ‹_›).trans (stopAfter_withCompareAfterSlot b h)
  | j | jal | jr | beq | bne | blez | bgtz => cases hc
  | halt =>
    obtain rfl := execHalt_next h
    rfl

/-! ## Transferring under another compare timing -/

/-- No transfer reads the compare timing: what it means for a branch stands in `Pending.early`. -/
theorem resolve_withCompareAfterSlot (s : State) (b : Bool) (p : Pending) :
    (withCompareAfterSlot s b).resolve p = withCompareAfterSlot (s.resolve p) b :=
  (replacesNoRegister_withCompareAfterSlot b).resolve s p

/-! ## A kept compare -/

/-- The compare reads only the compared registers. -/
theorem branchTaken_congr (h : ∀ r ∈ comparedRegs c, t.readReg r = s.readReg r) :
    t.branchTaken c = s.branchTaken c := by
  cases c with
  | beq rs rt imm | bne rs rt imm =>
    have hrs : t.readReg rs = s.readReg rs := h rs (by simp [comparedRegs])
    have hrt : t.readReg rt = s.readReg rt := h rt (by simp [comparedRegs])
    rw [State.branchTaken, State.branchTaken, hrs, hrt]
  | bgtz rs imm | blez rs imm =>
    have hrs : t.readReg rs = s.readReg rs := h rs (by simp [comparedRegs])
    rw [State.branchTaken, State.branchTaken, hrs]
  | j | jal | jr => rfl

/-- A transfer leaves its own compare as it was: only jal's writes a register, and jal compares none. -/
theorem branchTaken_resolve (s : State) (p : Pending) :
    (s.resolve p).branchTaken p.control = s.branchTaken p.control := by
  refine branchTaken_congr fun r hr => resolve_readReg s p fun hlink => ?_
  obtain ⟨-, address, hjal⟩ := linkOf_eq_some hlink
  rw [hjal] at hr
  cases hr

/-- Keeping the compare that would be made now makes no difference. -/
theorem resolve_of_early_eq_branchTaken {e : Option Bool} (h : s.branchTaken c = e) (a : Word) :
    s.resolve ⟨c, a, e⟩ = s.resolve ⟨c, a, none⟩ := by
  subst h
  cases c <;> rfl

end Sys2Proof.Safety

namespace Sys2Proof.Machine

open Sys2Proof.Safety

variable {s t u : State} {i : Instr} {c : Control} {p : Pending}

/-! ## Steps that go on -/

/-- A step that goes on executed an instruction that goes on. -/
theorem step_executes_of_running (h : step s = .next t) (ht : t.run = .running) :
    s.run = .running ∧ FW s ∧
      ∃ i u, instrAt s = some i ∧ exec i s = .next u ∧ u.run = .running ∧ t = u.retire s.slot := by
  obtain ⟨hr, ⟨k, hk, rfl⟩ | ⟨w, e, -, -, rfl⟩ | ⟨w, i, u, hw, hi, hx, rfl⟩⟩ := step_cases h
  · obtain ⟨f, rfl⟩ := fetch_error hk
    cases ht
  · cases ht
  · obtain ⟨hf, rfl⟩ := fetch_ok hw
    rw [retire_run] at ht
    exact ⟨hr, hf, i, u, instrAt_eq_some.mpr hi, hx, ht, rfl⟩

/-- Control flow in a delay slot does not go on (44_control_flow.md R162). -/
theorem asControl_eq_none_of_slot (hp : s.slot = some p) (hx : exec i s = .next u) (hu : u.run = .running) :
    asControl i = none := by
  cases hc : asControl i with
  | none => rfl
  | some c =>
    rw [exec_control hc, issue_of_pending hp] at hx
    cases hx
    cases hu

/-- The step of a control-flow instruction with nothing pending (44_control_flow.md R161). -/
theorem step_of_control (hr : s.run = .running) (hf : FW s) (hs : s.slot = none) (hi : instrAt s = some i)
    (hc : asControl i = some c) : step s = .next (s.advance.setSlot (some ⟨c, s.pc, s.earlyOutcome c⟩)) := by
  rw [step_of_exec hr hf hi ((exec_control hc s).trans (issue_of_empty hs)), hs, retire_none]

end Sys2Proof.Machine
end

section
/-! PROOFS of the family 44_control_flow.md, part 5. The obligations. -/

namespace Sys2Proof.Proofs

open Sys2Proof.Machine Sys2Proof.Safety

/-- Settles O28: step 1, with the compare of each branch as a number. -/
theorem branchesEnterTheDelaySlot : Obligations.BranchesEnterTheDelaySlot := fun rs rt imm s hs =>
  ⟨exec_control_of_empty rfl hs (earlyOutcome_of_branchTaken (branchTaken_beq s rs rt imm)),
    exec_control_of_empty rfl hs (earlyOutcome_of_branchTaken (branchTaken_bne s rs rt imm)),
    exec_control_of_empty rfl hs (earlyOutcome_of_branchTaken (branchTaken_bgtz s rs imm)),
    exec_control_of_empty rfl hs (earlyOutcome_of_branchTaken (branchTaken_blez s rs imm))⟩

/-- Settles O29: step 1, with nothing compared. -/
theorem jumpsEnterTheDelaySlot : Obligations.JumpsEnterTheDelaySlot := fun _ _ _ hs =>
  ⟨exec_control_of_empty rfl hs (earlyOutcome_of_branchTaken_none rfl),
    exec_control_of_empty rfl hs (earlyOutcome_of_branchTaken_none rfl),
    exec_control_of_empty rfl hs (earlyOutcome_of_branchTaken_none rfl)⟩

/-- Settles O30: step 1 with a transfer pending. -/
theorem controlInDelaySlotStops : Obligations.ControlInDelaySlotStops := fun _ _ _ s hc hp =>
  (exec_control hc s).trans (issue_of_pending hp)

/-- Settles O31: the step ends with the transfer, which each branch makes by its own compare. -/
theorem conditionalBranchOutcome : Obligations.ConditionalBranchOutcome := by
  intro s t p i hr hp hf hi hx ht after
  have hstep := step_of_slot hr hp hf hi hx ht
  obtain ⟨c, a, early⟩ := p
  have hbranch {taken : Bool} (imm : BitVec 16) (htaken : t.branchTaken c = some taken) :
      (t.branch c early imm).setSlot none = after (early.getD taken) imm := by
    rw [branch_eq_setPc htaken]
    rfl
  refine ⟨exec_pc_of_running hx ht, ?beq, ?bne, ?bgtz, ?blez⟩
  case beq =>
    rintro rs rt imm rfl
    exact hstep.trans (congrArg _ (hbranch imm (branchTaken_beq t rs rt imm)))
  case bne =>
    rintro rs rt imm rfl
    exact hstep.trans (congrArg _ (hbranch imm (branchTaken_bne t rs rt imm)))
  case bgtz =>
    rintro rs imm rfl
    exact hstep.trans (congrArg _ (hbranch imm (branchTaken_bgtz t rs imm)))
  case blez =>
    rintro rs imm rfl
    exact hstep.trans (congrArg _ (hbranch imm (branchTaken_blez t rs imm)))

/-- Settles O32: the step ends with the transfer, and jal's link is not index 0. -/
theorem jumpOutcome : Obligations.JumpOutcome := by
  intro s t p i hr hp hf hi hx ht region
  have hstep := step_of_slot hr hp hf hi hx ht
  have hregion (address : BitVec 26) : jumpTarget t.pc address = region address := jumpTarget_eq t.pc address
  obtain ⟨c, a, early⟩ := p
  refine ⟨exec_pc_of_running hx ht, ?j, ?jr, ?jal⟩
  case j =>
    rintro address rfl
    rw [hstep, ← hregion]
    rfl
  case jr =>
    rintro rs rfl
    exact hstep
  case jal =>
    rintro address rfl
    let linked := t.writeReg linkReg t.pc
    exact ⟨(linked.setPc (jumpTarget t.pc address)).setSlot none, hstep, hregion address,
      readReg_writeReg_linkReg t t.pc, fun r hr => State.readReg_writeReg_of_ne t linkReg t.pc hr,
      fun b => congrArg (Memory.read · b) (State.writeReg_mem t linkReg t.pc), rfl,
      (State.writeReg_run t linkReg t.pc).trans ht, State.writeReg_config t linkReg t.pc⟩

/-- Settles O34: step 1 and the transfer commute with replacing the memory, and only jal's transfer writes. -/
theorem controlFlowTouchesOnlyTheLink : Obligations.ControlFlowTouchesOnlyTheLink := by
  refine ⟨asControl_iff_mnemonic, fun i c s t hc hx => ?step1, fun s p => ?transfer⟩
  case step1 =>
    rw [exec_control hc] at hx
    obtain ⟨hmem, hregs⟩ := issue_frame hx
    exact ⟨hmem, hregs, fun m => (exec_control hc _).trans (issue_setMem m hx)⟩
  case transfer =>
    refine ⟨State.resolve_mem s p, resolve_setMem s p, fun r hr => resolve_readReg s p fun hlink => ?_⟩
    obtain ⟨h31, address, hjal⟩ := linkOf_eq_some hlink
    exact hr h31 address hjal

/-- Settles O56: the two runs differ in the compare timing and in the kept compare until the transfer, which makes
the same compare after the slot. -/
theorem compareTimingParameterIrrelevant : Obligations.CompareTimingParameterIrrelevant := by
  intro s s1 t i c hs hi hc h1 h2 ht hregs
  obtain ⟨hr1, hf1, i', u, hi', hx, hu, rfl⟩ := step_executes_of_running h2 ht
  obtain ⟨hr, hf, -⟩ := step_executes_of_running h1 hr1
  have hslot : s1 = (withCompareAfterSlot s true).advance.setSlot (some ⟨c, s.pc, none⟩) := by
    injection h1.symm.trans (step_of_control hr hf hs hi hc)
  subst hslot
  let kept : Pending := ⟨c, s.pc, s.branchTaken c⟩
  let s1' := (withCompareAfterSlot s false).advance.setSlot (some kept)
  have h1' : step (withCompareAfterSlot s false) = .next s1' := by
    rw [step_of_control (s := withCompareAfterSlot s false) hr hf hs hi hc]
    cases c <;> rfl
  have hi'c : asControl i' = none := asControl_eq_none_of_slot rfl hx hu
  have hx' : exec i' s1' = .next (withCompareAfterSlot (u.setSlot (some kept)) false) :=
    exec_withCompareAfterSlot hi'c false (exec_setSlot hi'c (some kept) hx)
  rw [State.setSlot_slot, retire_of_running hu] at hregs ⊢
  have htaken : u.branchTaken c = s.branchTaken c := calc
    u.branchTaken c = (u.resolve ⟨c, s.pc, none⟩).branchTaken c := (branchTaken_resolve u ⟨c, s.pc, none⟩).symm
    _ = s.branchTaken c := branchTaken_congr hregs
  refine ⟨s1', h1', ?_⟩
  rw [step_of_slot (s := s1') hr1 rfl hf1 hi' hx' hu, resolve_withCompareAfterSlot, resolve_setSlot,
    resolve_of_early_eq_branchTaken htaken]
  rfl

end Sys2Proof.Proofs
end

section
/-! PROOFS of the family 60_exceptions.md, part 1. The dump's register grouping, what the end of a run shows by its
stop (60_exceptions.md R192), and the words of a program file (R198, 70_reset_and_hazards.md R220). -/

namespace Sys2Proof.Machine

/-! ## The dump -/

section Grouping
variable (s : State)

@[simp] theorem registerGrouping_length : s.registerGrouping.length = 32 := by
  rw [State.registerGrouping, List.length_map, List.length_finRange]

theorem registerGrouping_getElem? (r : Reg) :
    s.registerGrouping[r.val]? = some (regNames[r], s.readReg r) := by
  simp [State.registerGrouping]

end Grouping

@[simp] theorem reset_readReg (r : Reg) : State.reset.readReg r = 0#32 := by
  simp [State.readReg, State.reset, Config.standard]

/-- The register part of the zeroed dump of R198. -/
theorem reset_registerGrouping : State.reset.registerGrouping = regNames.toList.map fun n => (n, 0#32) :=
  List.ext_getElem (by simp) fun k _ _ => by simp [State.registerGrouping]

/-! ## What each stop shows -/

section Observe
variable {s : State}

theorem observe_of_running (h : s.run = .running) : s.observe = none := by
  rw [State.observe, h]

theorem observe_of_halted (h : s.run = .halted) : s.observe = some ⟨0, some s.dump⟩ := by
  rw [State.observe, h]

theorem observe_of_illegal {w : Word} (h : s.run = .illegal w) : s.observe = some ⟨127, none⟩ := by
  rw [State.observe, h]

theorem observe_of_fault {k : FaultKind} {v : Word} (h : s.run = .fault k v) :
    s.observe = some ⟨faultExitStatus, none⟩ := by
  rw [State.observe, h]

theorem faultExitStatus_ne_zero : faultExitStatus ≠ 0 := Nat.succ_ne_zero _

end Observe

/-! ## Program files -/

/-- Bytes left over after the last whole word make the file no program. -/
theorem wordsOfFile_of_length : ∀ bytes : List Byte, bytes.length % 4 ≠ 0 → wordsOfFile bytes = none
  | [], h => absurd rfl h
  | [_], _ | [_, _], _ | [_, _, _], _ => rfl
  | _ :: _ :: _ :: _ :: rest, h => by
    have hrest : rest.length % 4 ≠ 0 := by
      simp only [List.length_cons] at h
      omega
    rw [wordsOfFile, wordsOfFile_of_length rest hrest, Option.map_none]

theorem wordsOfFile_bytesOfWord_append (w : Word) (rest : List Byte) :
    wordsOfFile (bytesOfWord w ++ rest) = (wordsOfFile rest).map fun ws => w :: ws := by
  show (wordsOfFile rest).map (fun ws => wordOfBytes _ _ _ _ :: ws) = _
  rw [wordOfBytes_extract]

theorem wordsOfFile_flatMap_bytesOfWord (image : List Word) :
    wordsOfFile (image.flatMap bytesOfWord) = some image := by
  induction image with
  | nil => rfl
  | cons w ws ih => rw [List.flatMap_cons, wordsOfFile_bytesOfWord_append, ih, Option.map_some]

theorem start_of_words {bytes : List Byte} {image : List Word} (h : wordsOfFile bytes = some image) :
    start (.file bytes) = .started (State.load true true image) := by
  rw [start, h]

theorem start_of_no_words {bytes : List Byte} (h : wordsOfFile bytes = none) : start (.file bytes) = startupError := by
  rw [start, h]

theorem startupError_eq : startupError = .failed ⟨1, some ⟨regNames.toList.map fun n => (n, 0#32), []⟩⟩ := by
  rw [startupError, State.dump, reset_registerGrouping]
  rfl

end Sys2Proof.Machine
end

section
/-! PROOFS of the family 60_exceptions.md, part 2. The obligations. -/

namespace Sys2Proof.Proofs

open Sys2Proof.Machine

/-- Settles O52: the three errors take the one startup error, and a file of words is read back word by word. -/
theorem startupErrors : Obligations.StartupErrors :=
  ⟨startupError_eq, startupError_eq,
    fun bytes h => (start_of_no_words (wordsOfFile_of_length bytes h)).trans startupError_eq,
    fun image => start_of_words (wordsOfFile_flatMap_bytesOfWord image)⟩

/-- Settles O53: one observation per stop, and the grouping of the dump read by index. -/
theorem observationOfEachStop : Obligations.ObservationOfEachStop := fun s =>
  ⟨observe_of_running,
    fun h => ⟨s.dump, observe_of_halted h, rfl, registerGrouping_length s, registerGrouping_getElem? s⟩,
    fun _ => observe_of_illegal,
    fun _ _ h => ⟨faultExitStatus, faultExitStatus_ne_zero, observe_of_fault h⟩⟩

end Sys2Proof.Proofs
end

section
/-! PROOFS of the family 70_reset_and_hazards.md, part 1. The fetch window of reset (70_reset_and_hazards.md R221), and
which effects of a step are faults (R228). -/

namespace Sys2Proof.Safety

open Sys2Proof.Machine

variable {s t : State}

/-- The default window of the empty image is `[0, 0)` (20_memory.md R46). -/
theorem reset_inFetchWindow (a : Word) : State.reset.inFetchWindow a ≠ true := by
  rw [Ne, inFetchWindow_iff]
  rintro ⟨r, hr, -, hhi⟩
  obtain rfl : r = ⟨0, 0⟩ := List.mem_singleton.mp hr
  exact Nat.not_lt_zero _ hhi

theorem isFault_of_running (h : s.run = .running) : isFault s.run = false := by
  rw [h]
  rfl

/-- Each fault is excluded by its own premise: a fetch fault by (FW), a misaligned access by (AL), control flow in a
slot by (DS). -/
theorem isFault_of_stepEffect (hr : s.run = .running) (hf : FW s) (hds : DS s) (hal : AL s) (he : StepEffect s t) :
    isFault t.run = false := by
  cases he with
  | fetchFault hk => cases hk.symm.trans (fetch_of_FW hf)
  | misaligned _ hi ha hn => exact absurd (hal _ _ _ hi ha) hn
  | controlInSlot _ hi hc hp =>
    have hnone := hds _ hi (by simp [hp])
    cases hc.symm.trans hnone
  | illegal | halt => rfl
  | issue => exact isFault_of_running hr
  | write | store => exact isFault_of_running (by simpa using hr)

end Sys2Proof.Safety
end

section
/-! PROOFS of the family 70_reset_and_hazards.md, part 2. The obligations. -/

namespace Sys2Proof.Proofs

open Sys2Proof.Machine Sys2Proof.Safety

/-- Settles O33: step 1 sets the slot, and the step after it executes the instruction there and transfers. -/
theorem delaySlotRunsExactlyOnce : Obligations.DelaySlotRunsExactlyOnce := by
  intro s i c hr hs hf hi hc p s1
  exact ⟨step_of_control hr hf hs hi hc, fun i' u hf1 hi' hx hu => step_of_slot (s := s1) hr rfl hf1 hi' hx hu⟩

/-- Settles O54: a running state has a step, and no effect of that step is a fault. -/
theorem noFaultForWellBehavedPrograms : Obligations.NoFaultForWellBehavedPrograms := by
  intro s hr hf hds hal
  obtain ⟨t, ht⟩ := step_next hr
  obtain ⟨-, he⟩ := step_effect ht
  exact ⟨t, ht, isFault_of_stepEffect hr hf hds hal he⟩

/-- Settles O51: nothing is placed, and the pc lies outside the empty window. -/
theorem emptyImageStopsAtOnce : Obligations.EmptyImageStopsAtOnce :=
  ⟨rfl, step_of_fetch_error rfl (fetch_of_outside rfl (reset_inFetchWindow _))⟩

end Sys2Proof.Proofs
end
